-- ==== Sys2Proof/Word.lean ====
section
/-! DEFINITION. The word types of the hardware (00_scope.md R6, R7): unsigned, no signed reading anywhere. -/

namespace Sys2Proof

/-- A 32-bit word (R6 "word width"). -/
abbrev Word := BitVec 32

/-- A word address of the host register space (R6 "host bus address width", 6 bits). -/
abbrev Addr := BitVec 6

/-- A byte of the host's message (45_host_message_protocol.md R180). -/
abbrev Byte := BitVec 8

/-- The 39-bit transaction word TX (30_encoding.md R71). -/
abbrev TxWord := BitVec 39

end Sys2Proof
end

