-- ==== Sys2Proof/Syntax.lean ====
section
/-! DEFINITION. The host transactions, one constructor per row of spec/opcode_table.json (30_encoding.md R70, R81).

A read carries no WDATA: TX[31:0] of a read is ignored, and two reads that differ only there are the same transaction
(R72). A write carries its WDATA, also where the register ignores it. A CTRL write carries the reserved bits
WDATA[31:2] (R74); INIT and NEXT are the constructor. An unmapped access carries its address. -/

namespace Sys2Proof

inductive Instr where
  | rdId
  | wrId (wdata : Word)
  | rdVersion
  | wrVersion (wdata : Word)
  | rdUnmapped02 (addr : Addr)
  | wrUnmapped02 (addr : Addr) (wdata : Word)
  | rdUnmapped04 (addr : Addr)
  | wrUnmapped04 (addr : Addr) (wdata : Word)
  | rdUnmapped0B (addr : Addr)
  | wrUnmapped0B (addr : Addr) (wdata : Word)
  | rdUnmapped0C (addr : Addr)
  | wrUnmapped0C (addr : Addr) (wdata : Word)
  | rdUnmapped28 (addr : Addr)
  | wrUnmapped28 (addr : Addr) (wdata : Word)
  | rdUnmapped30 (addr : Addr)
  | wrUnmapped30 (addr : Addr) (wdata : Word)
  | rdCtrl
  | wrCtrlNop (rsvd : BitVec 30)
  | wrCtrlInit (rsvd : BitVec 30)
  | wrCtrlNext (rsvd : BitVec 30)
  | wrCtrlInitNext (rsvd : BitVec 30)
  | rdStatus
  | wrStatus (wdata : Word)
  | rdBlocks
  | wrBlocks (wdata : Word)
  | rdBlock (j : Fin 16)
  | wrBlock (j : Fin 16) (wdata : Word)
  | rdDigest (k : Fin 8)
  | wrDigest (k : Fin 8) (wdata : Word)
deriving DecidableEq, Repr

end Sys2Proof
end

