-- ==== Sys2Proof/WellFormed.lean ====
section
/-! DEFINITION. Well-formed transactions: an unmapped access names an address of its own row's range
(30_encoding.md R81, spec/opcode_table.json). Every other operand is bounded by its type. -/

namespace Sys2Proof

/-- `addr` lies in the row's range of addresses, both ends included. -/
def Addr.within (addr : Addr) (lo hi : Nat) : Bool :=
  decide (lo ≤ addr.toNat) && decide (addr.toNat ≤ hi)

/-- The check of one transaction's operands against its row. -/
def Instr.wellFormed : Instr → Bool
  | .rdId => true
  | .wrId _ => true
  | .rdVersion => true
  | .wrVersion _ => true
  | .rdUnmapped02 a => Addr.within a 0x02 0x03
  | .wrUnmapped02 a _ => Addr.within a 0x02 0x03
  | .rdUnmapped04 a => Addr.within a 0x04 0x07
  | .wrUnmapped04 a _ => Addr.within a 0x04 0x07
  | .rdUnmapped0B a => Addr.within a 0x0B 0x0B
  | .wrUnmapped0B a _ => Addr.within a 0x0B 0x0B
  | .rdUnmapped0C a => Addr.within a 0x0C 0x0F
  | .wrUnmapped0C a _ => Addr.within a 0x0C 0x0F
  | .rdUnmapped28 a => Addr.within a 0x28 0x2F
  | .wrUnmapped28 a _ => Addr.within a 0x28 0x2F
  | .rdUnmapped30 a => Addr.within a 0x30 0x3F
  | .wrUnmapped30 a _ => Addr.within a 0x30 0x3F
  | .rdCtrl => true
  | .wrCtrlNop _ => true
  | .wrCtrlInit _ => true
  | .wrCtrlNext _ => true
  | .wrCtrlInitNext _ => true
  | .rdStatus => true
  | .wrStatus _ => true
  | .rdBlocks => true
  | .wrBlocks _ => true
  | .rdBlock _ => true
  | .wrBlock _ _ => true
  | .rdDigest _ => true
  | .wrDigest _ _ => true

/-- The well-formed transactions: what the decoder can answer and the encoder accepts. -/
abbrev Instr.WellFormed (i : Instr) : Prop := i.wellFormed = true

end Sys2Proof
end

