-- ==== Sys2Proof/Decode.lean ====
section
/-! DEFINITION. The transaction word TX, its decoder (total: 30_encoding.md R76, R81), its encoder, and the opcode
table as rows of match and mask. -/

namespace Sys2Proof

/-- The three fields of a host transaction (30_encoding.md R70). -/
structure Tx where
  we : Bool
  addr : Addr
  wdata : Word
deriving DecidableEq, Repr

/-- TX = (WE, ADDR, WDATA) with WE in bit 38, ADDR in bits 37:32, WDATA in bits 31:0 (R71). -/
def Tx.bits (x : Tx) : TxWord := BitVec.ofBool x.we ++ x.addr ++ x.wdata

/-- The fields of a TX word (R71). -/
def Tx.ofBits (b : TxWord) : Tx := ⟨b.getLsbD 38, b.extractLsb' 32 6, b.extractLsb' 0 32⟩

/-- The block-word index j = ADDR[3:0] (R73). -/
def blockIndex (addr : Addr) : Fin 16 := (addr.extractLsb' 0 4).toFin

/-- The digest-word index k = ADDR[2:0] (R73). -/
def digestIndex (addr : Addr) : Fin 8 := (addr.extractLsb' 0 3).toFin

/-- INIT = WDATA[0] (R74). -/
def initBit (wdata : Word) : Bool := wdata.getLsbD 0

/-- NEXT = WDATA[1] (R74). -/
def nextBit (wdata : Word) : Bool := wdata.getLsbD 1

/-- The reserved bits WDATA[31:2] of a CTRL write (R74). -/
def reservedBits (wdata : Word) : BitVec 30 := wdata.extractLsb' 2 30

/-- A write to CTRL selects its row by WDATA[1:0] (R74). -/
def decodeCtrl (wdata : Word) : Instr :=
  match nextBit wdata, initBit wdata with
  | false, false => .wrCtrlNop (reservedBits wdata)
  | false, true => .wrCtrlInit (reservedBits wdata)
  | true, false => .wrCtrlNext (reservedBits wdata)
  | true, true => .wrCtrlInitNext (reservedBits wdata)

/-- The read rows by address (R81). -/
def decodeRead (addr : Addr) : Instr :=
  if addr = 0x00#6 then .rdId
  else if addr = 0x01#6 then .rdVersion
  else if Addr.within addr 0x02 0x03 then .rdUnmapped02 addr
  else if Addr.within addr 0x04 0x07 then .rdUnmapped04 addr
  else if addr = 0x08#6 then .rdCtrl
  else if addr = 0x09#6 then .rdStatus
  else if addr = 0x0A#6 then .rdBlocks
  else if addr = 0x0B#6 then .rdUnmapped0B addr
  else if Addr.within addr 0x0C 0x0F then .rdUnmapped0C addr
  else if Addr.within addr 0x10 0x1F then .rdBlock (blockIndex addr)
  else if Addr.within addr 0x20 0x27 then .rdDigest (digestIndex addr)
  else if Addr.within addr 0x28 0x2F then .rdUnmapped28 addr
  else .rdUnmapped30 addr

/-- The write rows by address, and for CTRL by WDATA[1:0] (R81, R74). -/
def decodeWrite (addr : Addr) (wdata : Word) : Instr :=
  if addr = 0x00#6 then .wrId wdata
  else if addr = 0x01#6 then .wrVersion wdata
  else if Addr.within addr 0x02 0x03 then .wrUnmapped02 addr wdata
  else if Addr.within addr 0x04 0x07 then .wrUnmapped04 addr wdata
  else if addr = 0x08#6 then decodeCtrl wdata
  else if addr = 0x09#6 then .wrStatus wdata
  else if addr = 0x0A#6 then .wrBlocks wdata
  else if addr = 0x0B#6 then .wrUnmapped0B addr wdata
  else if Addr.within addr 0x0C 0x0F then .wrUnmapped0C addr wdata
  else if Addr.within addr 0x10 0x1F then .wrBlock (blockIndex addr) wdata
  else if Addr.within addr 0x20 0x27 then .wrDigest (digestIndex addr) wdata
  else if Addr.within addr 0x28 0x2F then .wrUnmapped28 addr wdata
  else .wrUnmapped30 addr wdata

/-- The transaction of three fields. A read ignores WDATA (R72). -/
def Tx.decode (x : Tx) : Instr :=
  if x.we then decodeWrite x.addr x.wdata else decodeRead x.addr

/-- The decoder: every 39-bit TX selects exactly one row (R76, R81). -/
def decode (b : TxWord) : Instr := (Tx.ofBits b).decode

/-! ### The decoder on numbers -/

/-- Why a number is no transaction: it has a bit above bit 38, and a transaction has 39 bits (R71, R77). Raised by
`decodeWord` only (safe: the host bus cannot carry such a word). -/
inductive DecodeError where
  | notATransaction
deriving DecidableEq, Repr

/-- The transaction word of a number of `nbits` bits: bits at and above `nbits` count as 0 (notes/assumptions/10.md). -/
def txOfNumber (nbits w : Nat) : Except DecodeError TxWord :=
  if w % 2 ^ nbits < 2 ^ 39 then .ok (BitVec.ofNat 39 (w % 2 ^ nbits)) else .error .notATransaction

/-- The decoder on any number, rejecting by name what is no transaction. -/
def decodeWord (nbits w : Nat) : Except DecodeError Instr := (txOfNumber nbits w).map decode

/-- The host's question: the instruction of an opcode-table word. -/
def decodeTableWord (nbits w : Nat) : Option Instr := (decodeWord nbits w).toOption

/-! ### The encoder -/

/-- The canonical spelling of a read has TX[31:0] = 0 (R72). -/
def txRead (addr : Addr) : TxWord := Tx.bits ⟨false, addr, 0#32⟩

/-- A write delivers WDATA (R70). -/
def txWrite (addr : Addr) (wdata : Word) : TxWord := Tx.bits ⟨true, addr, wdata⟩

/-- WDATA of a CTRL write from its reserved bits and its two command bits (R74). -/
def ctrlData (rsvd : BitVec 30) (next init : Bool) : Word :=
  rsvd ++ BitVec.ofBool next ++ BitVec.ofBool init

/-- BLOCK[j] stands at 0x10 + j (20_memory.md R56). -/
def blockAddr (j : Fin 16) : Addr := 0x10#6 + BitVec.ofNat 6 j.val

/-- DIGEST[k] stands at 0x20 + k (R56). -/
def digestAddr (k : Fin 8) : Addr := 0x20#6 + BitVec.ofNat 6 k.val

/-- The canonical TX word of a transaction (R71, R72, R81). -/
def encode : Instr → TxWord
  | .rdId => txRead 0x00#6
  | .wrId d => txWrite 0x00#6 d
  | .rdVersion => txRead 0x01#6
  | .wrVersion d => txWrite 0x01#6 d
  | .rdUnmapped02 a => txRead a
  | .wrUnmapped02 a d => txWrite a d
  | .rdUnmapped04 a => txRead a
  | .wrUnmapped04 a d => txWrite a d
  | .rdUnmapped0B a => txRead a
  | .wrUnmapped0B a d => txWrite a d
  | .rdUnmapped0C a => txRead a
  | .wrUnmapped0C a d => txWrite a d
  | .rdUnmapped28 a => txRead a
  | .wrUnmapped28 a d => txWrite a d
  | .rdUnmapped30 a => txRead a
  | .wrUnmapped30 a d => txWrite a d
  | .rdCtrl => txRead 0x08#6
  | .wrCtrlNop r => txWrite 0x08#6 (ctrlData r false false)
  | .wrCtrlInit r => txWrite 0x08#6 (ctrlData r false true)
  | .wrCtrlNext r => txWrite 0x08#6 (ctrlData r true false)
  | .wrCtrlInitNext r => txWrite 0x08#6 (ctrlData r true true)
  | .rdStatus => txRead 0x09#6
  | .wrStatus d => txWrite 0x09#6 d
  | .rdBlocks => txRead 0x0A#6
  | .wrBlocks d => txWrite 0x0A#6 d
  | .rdBlock j => txRead (blockAddr j)
  | .wrBlock j d => txWrite (blockAddr j) d
  | .rdDigest k => txRead (digestAddr k)
  | .wrDigest k d => txWrite (digestAddr k) d

/-! ### The opcode table -/

/-- One row of spec/opcode_table.json. -/
structure Row where
  mnemonic : String
  pattern : TxWord
  mask : TxWord
deriving DecidableEq, Repr

/-- A TX word belongs to a row when its masked bits are the row's pattern. -/
def Row.selects (r : Row) (b : TxWord) : Bool := b &&& r.mask == r.pattern

/-- The rows of ID and VERSION. -/
def identityRows : List Row := [
  ⟨"RD_ID", 0x0000000000#39, 0x7f00000000#39⟩,
  ⟨"WR_ID", 0x4000000000#39, 0x7f00000000#39⟩,
  ⟨"RD_VERSION", 0x0100000000#39, 0x7f00000000#39⟩,
  ⟨"WR_VERSION", 0x4100000000#39, 0x7f00000000#39⟩]

/-- The rows of the unmapped addresses. -/
def unmappedRows : List Row := [
  ⟨"RD_UNMAPPED_02", 0x0200000000#39, 0x7e00000000#39⟩,
  ⟨"WR_UNMAPPED_02", 0x4200000000#39, 0x7e00000000#39⟩,
  ⟨"RD_UNMAPPED_04", 0x0400000000#39, 0x7c00000000#39⟩,
  ⟨"WR_UNMAPPED_04", 0x4400000000#39, 0x7c00000000#39⟩,
  ⟨"RD_UNMAPPED_0B", 0x0b00000000#39, 0x7f00000000#39⟩,
  ⟨"WR_UNMAPPED_0B", 0x4b00000000#39, 0x7f00000000#39⟩,
  ⟨"RD_UNMAPPED_0C", 0x0c00000000#39, 0x7c00000000#39⟩,
  ⟨"WR_UNMAPPED_0C", 0x4c00000000#39, 0x7c00000000#39⟩,
  ⟨"RD_UNMAPPED_28", 0x2800000000#39, 0x7800000000#39⟩,
  ⟨"WR_UNMAPPED_28", 0x6800000000#39, 0x7800000000#39⟩,
  ⟨"RD_UNMAPPED_30", 0x3000000000#39, 0x7000000000#39⟩,
  ⟨"WR_UNMAPPED_30", 0x7000000000#39, 0x7000000000#39⟩]

/-- The rows of CTRL. -/
def ctrlRows : List Row := [
  ⟨"RD_CTRL", 0x0800000000#39, 0x7f00000000#39⟩,
  ⟨"WR_CTRL_NOP", 0x4800000000#39, 0x7f00000003#39⟩,
  ⟨"WR_CTRL_INIT", 0x4800000001#39, 0x7f00000003#39⟩,
  ⟨"WR_CTRL_NEXT", 0x4800000002#39, 0x7f00000003#39⟩,
  ⟨"WR_CTRL_INIT_NEXT", 0x4800000003#39, 0x7f00000003#39⟩]

/-- The rows of STATUS, BLOCKS, BLOCK and DIGEST. -/
def registerRows : List Row := [
  ⟨"RD_STATUS", 0x0900000000#39, 0x7f00000000#39⟩,
  ⟨"WR_STATUS", 0x4900000000#39, 0x7f00000000#39⟩,
  ⟨"RD_BLOCKS", 0x0a00000000#39, 0x7f00000000#39⟩,
  ⟨"WR_BLOCKS", 0x4a00000000#39, 0x7f00000000#39⟩,
  ⟨"RD_BLOCK", 0x1000000000#39, 0x7000000000#39⟩,
  ⟨"WR_BLOCK", 0x5000000000#39, 0x7000000000#39⟩,
  ⟨"RD_DIGEST", 0x2000000000#39, 0x7800000000#39⟩,
  ⟨"WR_DIGEST", 0x6000000000#39, 0x7800000000#39⟩]

/-- The 29 rows of spec/opcode_table.json, in its order. -/
def opcodeTable : List Row := identityRows ++ unmappedRows ++ ctrlRows ++ registerRows

/-- The row a transaction belongs to, by its name in the table. -/
def Instr.mnemonic : Instr → String
  | .rdId => "RD_ID"
  | .wrId _ => "WR_ID"
  | .rdVersion => "RD_VERSION"
  | .wrVersion _ => "WR_VERSION"
  | .rdUnmapped02 _ => "RD_UNMAPPED_02"
  | .wrUnmapped02 _ _ => "WR_UNMAPPED_02"
  | .rdUnmapped04 _ => "RD_UNMAPPED_04"
  | .wrUnmapped04 _ _ => "WR_UNMAPPED_04"
  | .rdUnmapped0B _ => "RD_UNMAPPED_0B"
  | .wrUnmapped0B _ _ => "WR_UNMAPPED_0B"
  | .rdUnmapped0C _ => "RD_UNMAPPED_0C"
  | .wrUnmapped0C _ _ => "WR_UNMAPPED_0C"
  | .rdUnmapped28 _ => "RD_UNMAPPED_28"
  | .wrUnmapped28 _ _ => "WR_UNMAPPED_28"
  | .rdUnmapped30 _ => "RD_UNMAPPED_30"
  | .wrUnmapped30 _ _ => "WR_UNMAPPED_30"
  | .rdCtrl => "RD_CTRL"
  | .wrCtrlNop _ => "WR_CTRL_NOP"
  | .wrCtrlInit _ => "WR_CTRL_INIT"
  | .wrCtrlNext _ => "WR_CTRL_NEXT"
  | .wrCtrlInitNext _ => "WR_CTRL_INIT_NEXT"
  | .rdStatus => "RD_STATUS"
  | .wrStatus _ => "WR_STATUS"
  | .rdBlocks => "RD_BLOCKS"
  | .wrBlocks _ => "WR_BLOCKS"
  | .rdBlock _ => "RD_BLOCK"
  | .wrBlock _ _ => "WR_BLOCK"
  | .rdDigest _ => "RD_DIGEST"
  | .wrDigest _ _ => "WR_DIGEST"

end Sys2Proof
end

