-- ==== Sys2Proof/Config.lean ====
section
/-! DEFINITION. What the spec leaves open. Every parameter of R6 is fixed by the spec and stands in the types and
definitions that use it; the one value no rule states is the round constant at an index above 63. -/

namespace Sys2Proof.Config

/-- The round constant a ROUND step would read at an index T above 63. 40_datapath_functions.md R112 says such an
index "never occurs", and 10_state.md R37 that no reachable state has PHASE = ROUND with T above 63: the value is
therefore left free (DESIGN CHOICE, safe: notes/assumptions/5.md). -/
opaque kOutside : BitVec 7 → Word

end Sys2Proof.Config
end

