-- ==== Sys2Proof/Machine/State.lean ====
section
/-! DEFINITION. The state of one SHA256-CE instance (10_state.md), its host's remaining program, and the interleaving
still to run. Plain data. -/

namespace Sys2Proof.Machine

/-- Nothing raises a fault: no datapath operation, engine step or host transaction can fault, trap or stop the engine
(60_exceptions.md R200), so the type has no constructor. Safe. -/
inductive Fault where
deriving DecidableEq, Repr

/-- Why an instruction has no meaning. -/
inductive Refusal where
  /-- Raised by `exec` alone, for an instruction that has no meaning yet. Safe. No arm of `exec` raises it now. -/
  | notModelled (mnemonic : String)
deriving DecidableEq, Repr

/-- The eight hash-state words HS[0..7] (10_state.md R20). -/
abbrev HashState := Vector Word 8

/-- The sixteen words of a block (10_state.md R28). -/
abbrev Block := Vector Word 16

/-- The working variables a..h (10_state.md R21). -/
structure Vars where
  a : Word
  b : Word
  c : Word
  d : Word
  e : Word
  f : Word
  g : Word
  h : Word
deriving DecidableEq, Repr

/-- v[0..7] = (a, b, c, d, e, f, g, h) (R21). -/
def Vars.toVec (v : Vars) : HashState := #v[v.a, v.b, v.c, v.d, v.e, v.f, v.g, v.h]

/-- a <- HS[0], b <- HS[1], ..., h <- HS[7] (R21). -/
def Vars.ofHash (hs : HashState) : Vars := ⟨hs[0], hs[1], hs[2], hs[3], hs[4], hs[5], hs[6], hs[7]⟩

/-- The sequencer's phase (10_state.md R24). -/
inductive Phase where
  | idle
  | round
  | final
deriving DecidableEq, Repr

/-- BlockDone(i): the event that block pass i, counted from 0, is complete (10_state.md R31). -/
structure BlockDone where
  index : Word
deriving DecidableEq, Repr

/-- One thing the host's program does next: a transaction, or a POLL of a register (30_encoding.md R79). -/
inductive HostOp where
  | tx (bits : TxWord)
  | poll (addr : Addr) (mask value : Word)
deriving DecidableEq, Repr

/-- The input pins of one clock cycle (30_encoding.md R80). -/
structure Pins where
  rst : Bool
  cs : Bool
  we : Bool
  addr : Addr
  wdata : Word
deriving DecidableEq, Repr

/-- Who moves in one step: HOST or ENGINE (00_scope.md R10), a reset (70_reset_and_hazards.md R220), or a whole clock
cycle driven by the pins (R229). -/
inductive Turn where
  | host
  | engine
  | reset
  | clock (pins : Pins)
deriving DecidableEq, Repr

/-- One instance (10_state.md §1), with the fields of the model's own: `host`, `sched`, `rdata`. -/
structure State where
  /-- HS[0..7] (R20) -/
  hs : HashState
  /-- a..h (R21) -/
  v : Vars
  /-- T, the round counter, 7 bits (R23) -/
  t : BitVec 7
  /-- PHASE (R24) -/
  phase : Phase
  /-- VALID (R26) -/
  valid : Bool
  /-- ERR (R27) -/
  err : Bool
  /-- BLK[0..15] (R28) -/
  blk : Block
  /-- WIN[0..15] (R29) -/
  win : Block
  /-- BLOCKS (R30) -/
  blocks : Word
  /-- EVENTS, the oldest first (R31) -/
  events : List BlockDone
  /-- DONE_Q, signal level (30_encoding.md R80) -/
  doneQ : Bool
  /-- model's own: the RDATA of the latest host transaction, none for a write (notes/assumptions/3.md) -/
  rdata : Option Word
  /-- model's own: what the host's program still does (notes/assumptions/2.md) -/
  host : List HostOp
  /-- model's own: the interleaving still to run (notes/assumptions/1.md) -/
  sched : List Turn
deriving DecidableEq, Repr

/-- The state after reset (10_state.md R38), with no event yet and no program placed. -/
def State.reset : State where
  hs := IV
  v := ⟨0, 0, 0, 0, 0, 0, 0, 0⟩
  t := 0
  phase := .idle
  valid := false
  err := false
  blk := #v[0, 0, 0, 0, 0, 0, 0, 0, 0, 0, 0, 0, 0, 0, 0, 0]
  win := #v[0, 0, 0, 0, 0, 0, 0, 0, 0, 0, 0, 0, 0, 0, 0, 0]
  blocks := 0
  events := []
  doneQ := false
  rdata := none
  host := []
  sched := []

end Sys2Proof.Machine
end

