-- ==== Sys2Proof/Machine/Flags.lean ====
section
/-! DEFINITION. The status flags READY, VALID and ERR and the STATUS word (10_state.md R25, R26, R27, R36). There is no
other flag: no carry, overflow, zero or sign (R27). -/

namespace Sys2Proof.Machine

/-- READY = 1 when PHASE = IDLE (R25). -/
def State.ready (s : State) : Bool := decide (s.phase = .idle)

/-- zext_32({ERR, VALID, READY}) (R36). -/
def statusWord (err valid ready : Bool) : Word :=
  (BitVec.ofBool err ++ BitVec.ofBool valid ++ BitVec.ofBool ready).setWidth 32

/-- The value STATUS reads (R36, 44_host_transactions.md R161). -/
def State.status (s : State) : Word := statusWord s.err s.valid s.ready

end Sys2Proof.Machine
end

