-- ==== Sys2Proof/Machine/Operands.lean ====
section
/-! DEFINITION. The register map and the access to the indexed registers (20_memory.md R56, 30_encoding.md R73, R75,
R78). -/

namespace Sys2Proof.Machine

/-- BLK[j] (10_state.md R28). -/
def State.blkWord (s : State) (j : Fin 16) : Word := s.blk[j]

/-- BLK[j] <- w, the other words kept (30_encoding.md R75). -/
def State.setBlkWord (s : State) (j : Fin 16) (w : Word) : State :=
  { s with blk := s.blk.set j.val w }

/-- DIGEST[k] reads HS[k] (10_state.md R20). -/
def State.digestWord (s : State) (k : Fin 8) : Word := s.hs[k]

/-- A register by its symbolic name, or a raw address (30_encoding.md R78). -/
inductive Reg where
  | id
  | version
  | ctrl
  | status
  | blocks
  | block (j : Fin 16)
  | digest (k : Fin 8)
  | raw (addr : Addr)
deriving DecidableEq, Repr

/-- The word address of a register (R56). -/
def Reg.addr : Reg → Addr
  | .id => 0x00#6
  | .version => 0x01#6
  | .ctrl => 0x08#6
  | .status => 0x09#6
  | .blocks => 0x0A#6
  | .block j => blockAddr j
  | .digest k => digestAddr k
  | .raw a => a

/-- The word the register map gives at an address (R56): the value on the `rdata` port during a read
(30_encoding.md R80). An address that names nothing, and CTRL, read 0. -/
def State.readReg (s : State) (addr : Addr) : Word :=
  if addr = 0x00#6 then idValue
  else if addr = 0x01#6 then versionValue
  else if addr = 0x09#6 then s.status
  else if addr = 0x0A#6 then s.blocks
  else if Addr.within addr 0x10 0x1F then s.blkWord (blockIndex addr)
  else if Addr.within addr 0x20 0x27 then s.digestWord (digestIndex addr)
  else 0

end Sys2Proof.Machine
end

