-- ==== Sys2Proof/Machine/Ops.lean ====
section
/-! DEFINITION. The shared operations of the transactions (44_host_transactions.md R150, R158, R159, R160) and of reset
(70_reset_and_hazards.md R220).

There is no exception to take and none to return from (60_exceptions.md R200, R205). The one operation that stands in
its place is `State.reject`, the rejection of a command while busy (R158, R201). -/

namespace Sys2Proof.Machine

/-- What one transaction answers. -/
abbrev Result := Host.Outcome State Fault Refusal

/-- A read returns RDATA = w and changes nothing else (R150, R169). -/
def State.answer (s : State) (w : Word) : State := { s with rdata := some w }

/-- A write returns nothing (R150). -/
def State.noAnswer (s : State) : State := { s with rdata := none }

/-- DoInit (R159). -/
def State.doInit (s : State) : State :=
  { s with hs := IV, blocks := 0, valid := false, err := false }

/-- DoNext (R160): latch the block, load the working variables, start round 0. -/
def State.doNext (s : State) : State :=
  { s with win := s.blk, v := Vars.ofHash s.hs, t := 0, phase := .round, valid := false }

/-- The rejection of a command while busy: its only effect is ERR <- 1 (R158). -/
def State.reject (s : State) : State := { s with err := true }

/-- A CTRL command is performed while PHASE = IDLE and rejected otherwise (R155 to R158). -/
def State.command (s : State) (perform : State → State) : State :=
  if s.phase = .idle then perform s else s.reject

/-- The reset event (70_reset_and_hazards.md R220): every state element to its value of 10_state.md R38. EVENTS is
unchanged. The host's program, the interleaving and the host's copy of RDATA are not engine storage
(notes/assumptions/13.md). -/
def State.applyReset (s : State) : State :=
  { State.reset with events := s.events, rdata := s.rdata, host := s.host, sched := s.sched }

end Sys2Proof.Machine
end

