-- ==== Sys2Proof/Machine/BlockBuffer.lean ====
section
/-! DEFINITION. The block buffer BLK (44_host_transactions.md R163, R164), written and read in every phase. -/

namespace Sys2Proof.Machine

/-- RD_BLOCK j (R164). -/
def execRdBlock (j : Fin 16) (s : State) : Result := .next (s.answer (s.blkWord j))

/-- WR_BLOCK j: BLK[j] <- WDATA (R163). -/
def execWrBlock (j : Fin 16) (wdata : Word) (s : State) : Result := .next (s.setBlkWord j wdata).noAnswer

end Sys2Proof.Machine
end

