-- ==== Sys2Proof/Machine/Command.lean ====
section
/-! DEFINITION. The command register CTRL (44_host_transactions.md R153 to R157). A command is performed while PHASE = IDLE
and rejected otherwise (R158). -/

namespace Sys2Proof.Machine

/-- RD_CTRL: CTRL has no storage and reads 0 (R153). -/
def execRdCtrl (s : State) : Result := .next (s.answer 0)

/-- WR_CTRL_NOP: no effect, busy or not (R154). -/
def execWrCtrlNop (_rsvd : BitVec 30) (s : State) : Result := .next s.noAnswer

/-- WR_CTRL_INIT (R155). -/
def execWrCtrlInit (_rsvd : BitVec 30) (s : State) : Result := .next (s.command State.doInit).noAnswer

/-- WR_CTRL_NEXT (R156). -/
def execWrCtrlNext (_rsvd : BitVec 30) (s : State) : Result := .next (s.command State.doNext).noAnswer

/-- WR_CTRL_INIT_NEXT: DoInit and then DoNext on the state DoInit leaves, in one step (R157). -/
def execWrCtrlInitNext (_rsvd : BitVec 30) (s : State) : Result :=
  .next (s.command fun r => r.doInit.doNext).noAnswer

end Sys2Proof.Machine
end

