-- ==== Sys2Proof/Machine/Digest.lean ====
section
/-! DEFINITION. The digest registers (44_host_transactions.md R165, R166). -/

namespace Sys2Proof.Machine

/-- RD_DIGEST k reads HS[k] as it is, busy or not (R165). -/
def execRdDigest (k : Fin 8) (s : State) : Result := .next (s.answer (s.digestWord k))

/-- WR_DIGEST: ignored, HS is not loaded (R166). -/
def execWrDigest (_k : Fin 8) (_wdata : Word) (s : State) : Result := .next s.noAnswer

end Sys2Proof.Machine
end

