-- ==== Sys2Proof/Machine/Identity.lean ====
section
/-! DEFINITION. The identity registers ID and VERSION (44_host_transactions.md R151, R152, R166). -/

namespace Sys2Proof.Machine

/-- RD_ID (R151). -/
def execRdId (s : State) : Result := .next (s.answer idValue)

/-- WR_ID: ignored (R166). -/
def execWrId (_wdata : Word) (s : State) : Result := .next s.noAnswer

/-- RD_VERSION (R152). -/
def execRdVersion (s : State) : Result := .next (s.answer versionValue)

/-- WR_VERSION: ignored (R166). -/
def execWrVersion (_wdata : Word) (s : State) : Result := .next s.noAnswer

end Sys2Proof.Machine
end

