-- ==== Sys2Proof/Machine/Status.lean ====
section
/-! DEFINITION. STATUS and BLOCKS (44_host_transactions.md R161, R162, R166). -/

namespace Sys2Proof.Machine

/-- RD_STATUS (R161). -/
def execRdStatus (s : State) : Result := .next (s.answer s.status)

/-- WR_STATUS: ignored, it does not clear ERR (R166). -/
def execWrStatus (_wdata : Word) (s : State) : Result := .next s.noAnswer

/-- RD_BLOCKS (R162). -/
def execRdBlocks (s : State) : Result := .next (s.answer s.blocks)

/-- WR_BLOCKS: ignored (R166). -/
def execWrBlocks (_wdata : Word) (s : State) : Result := .next s.noAnswer

end Sys2Proof.Machine
end

