-- ==== Sys2Proof/Machine/Unmapped.lean ====
section
/-! DEFINITION. The unmapped addresses: they read 0 and ignore writes, and set no flag (44_host_transactions.md R167,
R168). -/

namespace Sys2Proof.Machine

/-- RD_UNMAPPED_02: 0x02..0x03 reads 0 (R167). -/
def execRdUnmapped02 (_addr : Addr) (s : State) : Result := .next (s.answer 0)

/-- WR_UNMAPPED_02: a write to 0x02..0x03 is ignored (R168). -/
def execWrUnmapped02 (_addr : Addr) (_wdata : Word) (s : State) : Result := .next s.noAnswer

/-- RD_UNMAPPED_04: 0x04..0x07 reads 0 (R167). -/
def execRdUnmapped04 (_addr : Addr) (s : State) : Result := .next (s.answer 0)

/-- WR_UNMAPPED_04: a write to 0x04..0x07 is ignored (R168). -/
def execWrUnmapped04 (_addr : Addr) (_wdata : Word) (s : State) : Result := .next s.noAnswer

/-- RD_UNMAPPED_0B: 0x0B reads 0 (R167). -/
def execRdUnmapped0B (_addr : Addr) (s : State) : Result := .next (s.answer 0)

/-- WR_UNMAPPED_0B: a write to 0x0B is ignored (R168). -/
def execWrUnmapped0B (_addr : Addr) (_wdata : Word) (s : State) : Result := .next s.noAnswer

/-- RD_UNMAPPED_0C: 0x0C..0x0F reads 0 (R167). -/
def execRdUnmapped0C (_addr : Addr) (s : State) : Result := .next (s.answer 0)

/-- WR_UNMAPPED_0C: a write to 0x0C..0x0F is ignored (R168). -/
def execWrUnmapped0C (_addr : Addr) (_wdata : Word) (s : State) : Result := .next s.noAnswer

/-- RD_UNMAPPED_28: 0x28..0x2F reads 0 (R167). -/
def execRdUnmapped28 (_addr : Addr) (s : State) : Result := .next (s.answer 0)

/-- WR_UNMAPPED_28: a write to 0x28..0x2F is ignored (R168). -/
def execWrUnmapped28 (_addr : Addr) (_wdata : Word) (s : State) : Result := .next s.noAnswer

/-- RD_UNMAPPED_30: 0x30..0x3F reads 0 (R167). -/
def execRdUnmapped30 (_addr : Addr) (s : State) : Result := .next (s.answer 0)

/-- WR_UNMAPPED_30: a write to 0x30..0x3F is ignored (R168). -/
def execWrUnmapped30 (_addr : Addr) (_wdata : Word) (s : State) : Result := .next s.noAnswer

end Sys2Proof.Machine
end

