-- ==== Sys2Proof/Machine/Dispatch.lean ====
section
/-! DEFINITION. One arm per row of spec/opcode_table.json (44_host_transactions.md R150). -/

namespace Sys2Proof.Machine

/-- The effect of one host transaction. -/
def exec (i : Instr) (s : State) : Host.Outcome State Fault Refusal :=
  match i with
  | .rdId => Sys2Proof.Machine.execRdId s
  | .wrId d => Sys2Proof.Machine.execWrId d s
  | .rdVersion => Sys2Proof.Machine.execRdVersion s
  | .wrVersion d => Sys2Proof.Machine.execWrVersion d s
  | .rdUnmapped02 a => Sys2Proof.Machine.execRdUnmapped02 a s
  | .wrUnmapped02 a d => Sys2Proof.Machine.execWrUnmapped02 a d s
  | .rdUnmapped04 a => Sys2Proof.Machine.execRdUnmapped04 a s
  | .wrUnmapped04 a d => Sys2Proof.Machine.execWrUnmapped04 a d s
  | .rdUnmapped0B a => Sys2Proof.Machine.execRdUnmapped0B a s
  | .wrUnmapped0B a d => Sys2Proof.Machine.execWrUnmapped0B a d s
  | .rdUnmapped0C a => Sys2Proof.Machine.execRdUnmapped0C a s
  | .wrUnmapped0C a d => Sys2Proof.Machine.execWrUnmapped0C a d s
  | .rdUnmapped28 a => Sys2Proof.Machine.execRdUnmapped28 a s
  | .wrUnmapped28 a d => Sys2Proof.Machine.execWrUnmapped28 a d s
  | .rdUnmapped30 a => Sys2Proof.Machine.execRdUnmapped30 a s
  | .wrUnmapped30 a d => Sys2Proof.Machine.execWrUnmapped30 a d s
  | .rdCtrl => Sys2Proof.Machine.execRdCtrl s
  | .wrCtrlNop r => Sys2Proof.Machine.execWrCtrlNop r s
  | .wrCtrlInit r => Sys2Proof.Machine.execWrCtrlInit r s
  | .wrCtrlNext r => Sys2Proof.Machine.execWrCtrlNext r s
  | .wrCtrlInitNext r => Sys2Proof.Machine.execWrCtrlInitNext r s
  | .rdStatus => Sys2Proof.Machine.execRdStatus s
  | .wrStatus d => Sys2Proof.Machine.execWrStatus d s
  | .rdBlocks => Sys2Proof.Machine.execRdBlocks s
  | .wrBlocks d => Sys2Proof.Machine.execWrBlocks d s
  | .rdBlock j => Sys2Proof.Machine.execRdBlock j s
  | .wrBlock j d => Sys2Proof.Machine.execWrBlock j d s
  | .rdDigest k => Sys2Proof.Machine.execRdDigest k s
  | .wrDigest k d => Sys2Proof.Machine.execWrDigest k d s

end Sys2Proof.Machine
end

