-- ==== Sys2Proof/Machine/Datapath.lean ====
section
/-! DEFINITION. The combinational functions of the datapath (40_datapath_functions.md R100 to R109), the round's update
of the working variables (42_round_function.md R130), the window update (41_message_scheduler.md R121) and the
feedback addition (43_block_feedback.md R140). Addition of words is modulo 2^32 (R102). -/

namespace Sys2Proof.Machine

/-- rotr(x, n), circular right rotation, 1 ≤ n ≤ 31 (R100). -/
def rotr (x : Word) (n : Nat) : Word := (x >>> n) ||| (x <<< (32 - n))

/-- shr(x, n), logical right shift with zero fill (R101, 90_conflicts.md C2). -/
def shr (x : Word) (n : Nat) : Word := x >>> n

/-- σ0 (R104). -/
def sigma0 (x : Word) : Word := rotr x 7 ^^^ rotr x 18 ^^^ shr x 3

/-- σ1 (R105). -/
def sigma1 (x : Word) : Word := rotr x 17 ^^^ rotr x 19 ^^^ shr x 10

/-- Σ0 (R106). -/
def bigSigma0 (x : Word) : Word := rotr x 2 ^^^ rotr x 13 ^^^ rotr x 22

/-- Σ1 (R107). -/
def bigSigma1 (x : Word) : Word := rotr x 6 ^^^ rotr x 11 ^^^ rotr x 25

/-- Ch, choose (R108). -/
def ch (e f g : Word) : Word := (e &&& f) ^^^ (~~~e &&& g)

/-- Maj, majority (R109). -/
def maj (a b c : Word) : Word := (a &&& b) ^^^ (a &&& c) ^^^ (b &&& c)

/-- t1 of a round (R130). -/
def roundT1 (v : Vars) (kt wt : Word) : Word := v.h + bigSigma1 v.e + ch v.e v.f v.g + kt + wt

/-- t2 of a round (R130). -/
def roundT2 (v : Vars) : Word := bigSigma0 v.a + maj v.a v.b v.c

/-- The working variables after one round with round constant kt and schedule word wt (R130). -/
def roundVars (v : Vars) (kt wt : Word) : Vars where
  a := roundT1 v kt wt + roundT2 v
  b := v.a
  c := v.b
  d := v.c
  e := v.d + roundT1 v kt wt
  f := v.e
  g := v.f
  h := v.g

/-- Wnew of the window update (R121). -/
def windowNew (win : Block) : Word := sigma1 win[14] + win[9] + sigma0 win[1] + win[0]

/-- The window update: WIN[j] <- WIN[j+1] for j ≤ 14, WIN[15] <- Wnew (R121). -/
def windowNext (win : Block) : Block :=
  Vector.ofFn fun j => if h : j.val + 1 < 16 then win[j.val + 1] else windowNew win

/-- HS[k] + v[k] for k = 0..7, each modulo 2^32 (R140). -/
def feedback (hs : HashState) (v : Vars) : HashState :=
  Vector.ofFn fun k => hs[k] + v.toVec[k]

end Sys2Proof.Machine
end

