-- ==== Sys2Proof/Machine/Engine.lean ====
section
/-! DEFINITION. The engine's two steps, ROUND (42_round_function.md R130) and FINAL (43_block_feedback.md R140). All
right-hand sides read the state at the start of the step (00_scope.md R9). -/

namespace Sys2Proof.Machine

/-- ROUND (R130, with the window update of 41_message_scheduler.md R121). -/
def roundStep (s : State) : State :=
  { s with
    v := roundVars s.v (roundConstant s.t) s.win[0]
    win := windowNext s.win
    t := s.t + 1
    phase := if s.t = 63 then .final else s.phase }

/-- FINAL (R140): the feedback addition, the BlockDone event with the count before the increment, the count, VALID,
and the end of the pass, in one step. DONE_Q <- 1 (30_encoding.md R80). -/
def finalStep (s : State) : State :=
  { s with
    hs := feedback s.hs s.v
    events := s.events ++ [⟨s.blocks⟩]
    blocks := s.blocks + 1
    valid := true
    phase := .idle
    t := 0
    doneQ := true }

/-- The engine step enabled in a phase (10_state.md R24): none in IDLE. -/
def engineStepAt : Phase → State → State
  | .idle, s => s
  | .round, s => roundStep s
  | .final, s => finalStep s

/-- The engine step enabled in a state. -/
def engineStep (s : State) : State := engineStepAt s.phase s

end Sys2Proof.Machine
end

