-- ==== Sys2Proof/Machine/Agents.lean ====
section
/-! DEFINITION. The turns of the agents: HOST and ENGINE (00_scope.md R10, 20_memory.md R53), reset
(70_reset_and_hazards.md R220) and the whole clock cycle (R229), with the ports of 30_encoding.md R80. -/

namespace Sys2Proof.Machine

/-- The read transaction of a POLL (30_encoding.md R79). -/
def pollTx (addr : Addr) : TxWord := txRead addr

/-- The POLL's read has been answered: the loop ends when (rdata AND mask) = value, and else stays (R79). -/
def pollNext (rest : List HostOp) (mask value : Word) (s : State) : State :=
  match s.rdata with
  | some w => if w &&& mask = value then { s with host := rest } else s
  | none => s

/-- HOST performs the next operation of its program as one atomic step (R53, R54). With no operation left it does
nothing. -/
def hostTurn (s : State) : Result :=
  match s.host with
  | [] => .next s
  | .tx b :: rest => exec (decode b) { s with host := rest }
  | .poll addr mask value :: rest =>
    match exec (decode (pollTx addr)) s with
    | .next s' => .next (pollNext rest mask value s')
    | .fault r => .fault r
    | .refused r => .refused r

/-- ENGINE performs the step its phase enables; in IDLE it takes none (R24, R53). -/
def engineTurn (s : State) : Result := .next (engineStep s)

/-- Reset is a step of its own between any two steps (70_reset_and_hazards.md R220). -/
def resetTurn (s : State) : Result := .next s.applyReset

/-- The transaction the pins present (30_encoding.md R80). -/
def Pins.tx (p : Pins) : TxWord := Tx.bits ⟨p.we, p.addr, p.wdata⟩

/-- The transaction a cycle presents takes effect; with cs = 0 there is none. -/
def busCycle (p : Pins) (s : State) : Result :=
  if p.cs then exec (decode p.tx) s else .next s

/-- One clock cycle (70_reset_and_hazards.md R229): reset overrides; else the host transaction first, and then the
engine step enabled at the start of the cycle. -/
def clockTurn (p : Pins) (s : State) : Result :=
  if p.rst then resetTurn s
  else
    match busCycle p s with
    | .next s' => .next (engineStepAt s.phase s')
    | .fault r => .fault r
    | .refused r => .refused r

/-- The output ports during a cycle (30_encoding.md R80). -/
structure Ports where
  rdata : Word
  ready : Bool
  blockDone : Bool
  blockIndex : Word
deriving DecidableEq, Repr

/-- The outputs, from the pins and the state at the start of the cycle (R80). -/
def State.ports (s : State) (p : Pins) : Ports where
  rdata := if p.cs && !p.we then s.readReg p.addr else 0
  ready := s.ready
  blockDone := s.doneQ
  blockIndex := if s.doneQ then s.blocks - 1 else 0

/-- One turn. -/
def takeTurn : Turn → State → Result
  | .host, s => hostTurn s
  | .engine, s => engineTurn s
  | .reset, s => resetTurn s
  | .clock p, s => clockTurn p s

/-- Whose turn it is: the interleaving's next entry; past its end, ENGINE while a pass is in progress and HOST
otherwise (notes/assumptions/1.md). -/
def nextTurn (s : State) : Turn :=
  match s.sched with
  | u :: _ => u
  | [] => if s.phase = .idle then .host else .engine

/-- What every step does before its turn: the interleaving moves on, and DONE_Q falls (30_encoding.md R80: every clock
edge but FINAL's sets it to 0; notes/assumptions/4.md). -/
def State.beginStep (s : State) : State := { s with sched := s.sched.tail, doneQ := false }

/-- A transaction placed as the host's next operation, with the turn the host's
(notes/assumptions/2.md). -/
def State.present (s : State) (b : TxWord) : State :=
  { s with host := .tx b :: s.host, sched := .host :: s.sched }

/-- The same for a number; one that is no transaction cannot be presented (notes/assumptions/10.md). -/
def State.presentNumber (s : State) (nbits w : Nat) : State :=
  match txOfNumber nbits w with
  | .ok b => s.present b
  | .error _ => s

end Sys2Proof.Machine
end

