-- ==== Sys2Proof/Machine/Compress.lean ====
section
/-! DEFINITION. The compression as a function, from the source's own recurrence (41_message_scheduler.md R120,
42_round_function.md R133, 43_block_feedback.md R141, R142): what the engine's steps are held to. It reads no state
of the machine. -/

namespace Sys2Proof.Machine

/-- W_t for 16 ≤ t from the words before it (R120). -/
def scheduleExtend (ws : List Word) (t : Nat) : Word :=
  ws.getD (t - 16) 0 + sigma0 (ws.getD (t - 15) 0) + ws.getD (t - 7) 0 + sigma1 (ws.getD (t - 2) 0)

/-- The first n words of the message schedule of block m (R120). -/
def scheduleWords (m : Block) : Nat → List Word
  | 0 => []
  | t + 1 =>
    scheduleWords m t ++ [if h : t < 16 then m[t] else scheduleExtend (scheduleWords m t) t]

/-- W_t of block m (R120). -/
def scheduleWord (m : Block) (t : Nat) : Word := (scheduleWords m (t + 1)).getD t 0

/-- The working variables after rounds 0..n-1 of block m from chaining value hs (R133). -/
def roundsTo (hs : HashState) (m : Block) : Nat → Vars
  | 0 => Vars.ofHash hs
  | t + 1 => roundVars (roundsTo hs m t) (roundConstant (BitVec.ofNat 7 t)) (scheduleWord m t)

/-- Rounds(H, M): the working variables after round 63 (R133). -/
def rounds (hs : HashState) (m : Block) : Vars := roundsTo hs m 64

/-- Compress(H, M)[k] = H[k] + Rounds(H, M)[k] (R141). -/
def compress (hs : HashState) (m : Block) : HashState := feedback hs (rounds hs m)

/-- The chaining of successive block passes with no INIT between them (R142). -/
def chain (hs : HashState) (ms : List Block) : HashState := ms.foldl compress hs

end Sys2Proof.Machine
end

