-- ==== Sys2Proof/Machine/HostProtocol.lean ====
section
/-! DEFINITION. The host's duties (00_scope.md R4, 45_host_message_protocol.md R180 to R191) and the pseudo-instructions
a host program is written in (30_encoding.md R78, R79). They are the environment of the engine: no step of the engine
reads them. -/

namespace Sys2Proof.Machine

/-! ### Padding, packing, block count (R180 to R185) -/

/-- Z = (55 − N) mod 64, the number of zero bytes (R181). -/
def zeroCount (n : Nat) : Nat := (119 - n % 64) % 64

/-- be64(L): L as 8 bytes, the most significant first (R182). L is below 2^64 in every program: a longer message is
refused first (R185). -/
def be64 (l : Nat) : List Byte :=
  (List.range 8).map fun i => (BitVec.ofNat 64 l).extractLsb' (56 - 8 * i) 8

/-- The marker byte, the zero bytes and the length field for a message of n bytes (R180). -/
def padding (n : Nat) : List Byte := 0x80#8 :: List.replicate (zeroCount n) 0#8 ++ be64 (8 * n)

/-- P = m ++ [0x80] ++ zeros(Z) ++ be64(8 N) (R180). -/
def pad (m : List Byte) : List Byte := m ++ padding m.length

/-- A word from four bytes, big-endian (R183). -/
def packWord (b0 b1 b2 b3 : Byte) : Word :=
  (b0.setWidth 32 <<< 24) ||| (b1.setWidth 32 <<< 16) ||| (b2.setWidth 32 <<< 8) ||| b3.setWidth 32

/-- Word i of a byte stream (R183). -/
def streamWord (p : List Byte) (i : Nat) : Word :=
  packWord (p.getD (4 * i) 0) (p.getD (4 * i + 1) 0) (p.getD (4 * i + 2) 0) (p.getD (4 * i + 3) 0)

/-- M_b of a byte stream: words 16b to 16b + 15 (R183). -/
def streamBlock (p : List Byte) (b : Nat) : Block := Vector.ofFn fun j => streamWord p (16 * b + j.val)

/-- The whole blocks of a byte stream, in order (R183). -/
def streamBlocks (p : List Byte) : List Block := (List.range (p.length / 64)).map (streamBlock p)

/-- The blocks M_0, M_1, ... of a message (R180, R183). -/
def messageBlocks (m : List Byte) : List Block := streamBlocks (pad m)

/-- The number of blocks of a message of n bytes: floor((N + 8) / 64) + 1 (R184). -/
def blockCount (n : Nat) : Nat := (n + 8) / 64 + 1

/-- The hash state after a message's last block, starting from IV (R142, R186). -/
def sha256 (m : List Byte) : HashState := chain IV (messageBlocks m)

/-! ### Programs (30_encoding.md R78, R79) -/

/-- `WR reg, value` (R78). -/
def opWr (r : Reg) (value : Word) : HostOp := .tx (txWrite r.addr value)

/-- `RD reg` (R78). -/
def opRd (r : Reg) : HostOp := .tx (txRead r.addr)

/-- `INIT` (R79). -/
def opInit : HostOp := opWr .ctrl 0x1

/-- `NEXT` (R79). -/
def opNext : HostOp := opWr .ctrl 0x2

/-- `INITNEXT` (R79). -/
def opInitNext : HostOp := opWr .ctrl 0x3

/-- `POLL reg, mask, value` (R79). -/
def opPoll (r : Reg) (mask value : Word) : HostOp := .poll r.addr mask value

/-- `WAIT`: POLL STATUS, 0x1, 0x1 (R79). -/
def opWait : HostOp := opPoll .status 0x1 0x1

/-- `WRBLK w0, ..., w15`, in index order (R79). -/
def opsWrBlk (m : Block) : List HostOp := (List.finRange 16).map fun j => opWr (.block j) m[j]

/-- `RDDIG`, in index order (R79). -/
def opsRdDig : List HostOp := (List.finRange 8).map fun k => opRd (.digest k)

/-! ### The block loop (R185, R186) -/

/-- Why the host sends no block of a message. Raised by `messageProgram` and by the streaming host's `Stream.feed` and
`Stream.finish`, never by the machine (safe): the message's bit length exceeds 2^64 − 1 (R185). -/
inductive HostError where
  | messageTooLong
deriving DecidableEq, Repr

/-- A message of n bytes is longer than the host may send: 8 n > 2^64 − 1 (R185). -/
abbrev OverLimit (n : Nat) : Prop := 2 ^ 64 - 1 < 8 * n

/-- The blocks after the first: WRBLK, WAIT, NEXT for each (R186). -/
def laterBlocks (ms : List Block) : List HostOp := ms.flatMap fun m => opsWrBlk m ++ [opWait, opNext]

/-- The protocol of one message of at least one block (R186); with no block there is nothing to send. -/
def blockLoop : List Block → List HostOp
  | [] => []
  | m :: ms => opWait :: opsWrBlk m ++ opInitNext :: laterBlocks ms ++ opWait :: opsRdDig

/-- The host's program for a message; it refuses 8 N > 2^64 − 1 and sends no block of it (R185, R186). -/
def messageProgram (m : List Byte) : Except HostError (List HostOp) :=
  if OverLimit m.length then .error .messageTooLong else .ok (blockLoop (messageBlocks m))

/-! ### Progress and streaming (R187, R189) -/

/-- `on_block(index, total_blocks)` for each BlockDone event, the total from the host's own count (R187, R184). -/
def progressReports (n : Nat) (events : List BlockDone) : List (Word × Nat) :=
  events.map fun e => (e.index, blockCount n)

/-- What a streaming host keeps: the bytes not yet sent and the count of bytes seen so far (R189). -/
structure Stream where
  pending : List Byte
  count : Nat
deriving DecidableEq, Repr

/-- No byte seen. -/
def Stream.empty : Stream := ⟨[], 0⟩

/-- A chunk of input: the blocks it completes, to be sent, and what the host then keeps. The count is held to the
limit as it grows, so a chunk that passes it is refused and no block of the chunk is sent (R189, R185). -/
def Stream.feed (st : Stream) (chunk : List Byte) : Except HostError (List Block × Stream) :=
  if OverLimit (st.count + chunk.length) then .error .messageTooLong
  else
    let bytes := st.pending ++ chunk
    .ok (streamBlocks bytes, ⟨bytes.drop (64 * (bytes.length / 64)), st.count + chunk.length⟩)

/-- The blocks sent at finalize time: the rest, padded with the whole count, which is held to the limit here too
(R189, R185). -/
def Stream.finish (st : Stream) : Except HostError (List Block) :=
  if OverLimit st.count then .error .messageTooLong else .ok (streamBlocks (st.pending ++ padding st.count))

/-- All blocks a streaming host sends for a list of chunks; no block of a message that passes the limit
(R189, R185, notes/assumptions/16.md). -/
def Stream.blocks (st : Stream) : List (List Byte) → Except HostError (List Block)
  | [] => st.finish
  | c :: cs =>
    match st.feed c with
    | .error e => .error e
    | .ok (sent, kept) => (kept.blocks cs).map (sent ++ ·)

/-- The program of a streaming host: the block loop over the blocks of its chunks (R186, R189). -/
def streamProgram (chunks : List (List Byte)) : Except HostError (List HostOp) :=
  (Stream.empty.blocks chunks).map blockLoop

/-! ### Digest rendering (R190, R191) -/

/-- The four bytes of a word, the most significant first (R190). -/
def wordBytes (w : Word) : List Byte := (List.range 4).map fun i => w.extractLsb' (24 - 8 * i) 8

/-- D[0..31]: D[4k + i] = HS[k][31 − 8i : 24 − 8i] (R190). -/
def digestBytes (hs : HashState) : List Byte := hs.toList.flatMap wordBytes

/-- One hexadecimal digit, lowercase (R191). -/
def hexDigit (n : BitVec 4) : Char :=
  if n.toNat < 10 then Char.ofNat (48 + n.toNat) else Char.ofNat (87 + n.toNat)

/-- Two digits of a byte, the high nibble first (R191). -/
def hexByte (b : Byte) : List Char := [hexDigit (b.extractLsb' 4 4), hexDigit (b.extractLsb' 0 4)]

/-- The 64 characters of the digest string (R191). -/
def digestHex (hs : HashState) : List Char := (digestBytes hs).flatMap hexByte

end Sys2Proof.Machine
end

