-- ==== Sys2Proof/Machine/Instances.lean ====
section
/-! DEFINITION. Several instances (60_exceptions.md R208): each owns its own state, and a platform is a list of them.
Only the constant tables are shared. -/

namespace Sys2Proof.Machine

/-- The instances of a platform. -/
abbrev Platform := List State

/-- Instance n takes a step; the others are left alone. A stop of the instance, of which there is none
(60_exceptions.md R200), would leave the platform as it is. -/
def Platform.stepAt (p : Platform) (n : Nat) : Platform :=
  match p[n]? with
  | none => p
  | some s =>
    match step s with
    | .next s' => p.set n s'
    | .fault _ => p
    | .refused _ => p

end Sys2Proof.Machine
end

