-- ==== Sys2Proof/Safety.lean ====
section
/-! DEFINITION. The terms the claims are stated in: runs, the invariant of the reachable states, what a block pass
holds while it runs, and which states an observer cannot tell apart. -/

namespace Sys2Proof.Machine

/-- k steps of the machine (Laws/Step.lean: this is the host interface's own run of `Sys2Proof.core`). -/
def run : Nat → State → Result
  | 0, s => .next s
  | k + 1, s =>
    match step s with
    | .next s' => run k s'
    | .fault r => .fault r
    | .refused r => .refused r

/-- The well-formedness of 10_state.md R37, clause by clause. -/
structure State.Inv (s : State) : Prop where
  idle : s.phase = .idle → s.t = 0
  round : s.phase = .round → s.t.toNat ≤ 63
  final : s.phase = .final → s.t = 64
  valid : s.valid = true → s.phase = .idle

/-- During a pass on block m from chaining value hs (42_round_function.md R132, R133, 41_message_scheduler.md R122): HS
still holds hs, a..h hold the working variables after T rounds, and WIN[j] = W_(T+j) wherever T + j ≤ 63. -/
structure InPass (hs : HashState) (m : Block) (s : State) : Prop where
  hash : s.hs = hs
  count : s.phase = .round → s.t.toNat ≤ 63
  last : s.phase = .final → s.t = 64
  vars : s.v = roundsTo hs m s.t.toNat
  window : ∀ j : Fin 16, s.t.toNat + j.val ≤ 63 → s.win[j] = scheduleWord m (s.t.toNat + j.val)

/-- Two states that no observation tells apart: they agree in every field but a..h and WIN, and in those too while a
pass is in progress (10_state.md R21, R29, 41_message_scheduler.md R123). -/
structure SameObservation (s s' : State) : Prop where
  hs : s.hs = s'.hs
  t : s.t = s'.t
  phase : s.phase = s'.phase
  valid : s.valid = s'.valid
  err : s.err = s'.err
  blk : s.blk = s'.blk
  blocks : s.blocks = s'.blocks
  events : s.events = s'.events
  doneQ : s.doneQ = s'.doneQ
  rdata : s.rdata = s'.rdata
  host : s.host = s'.host
  sched : s.sched = s'.sched
  vars : s.phase ≠ .idle → s.v = s'.v
  win : s.phase ≠ .idle → s.win = s'.win

/-- A turn of HOST or ENGINE: no reset and no cycle driven by pins. -/
def Turn.isAgent (u : Turn) : Prop := u = .host ∨ u = .engine

/-- One whole block pass taken by the engine alone: NEXT on block m, then its 65 engine steps
(70_reset_and_hazards.md R230). -/
def passOn (s : State) (m : Block) : State := engineStep^[65] ({ s with blk := m } : State).doNext

/-- The CTRL write that starts a pass: NEXT alone, or INIT and NEXT (44_host_transactions.md R156, R157). -/
def startInstr (withInit : Bool) (rsvd : BitVec 30) : Instr :=
  if withInit then .wrCtrlInitNext rsvd else .wrCtrlNext rsvd

/-- A CTRL write with INIT = 1 (30_encoding.md R74). -/
def asksInit : Instr → Bool
  | .wrCtrlInit _ => true
  | .wrCtrlInitNext _ => true
  | _ => false

/-- A CTRL write with NEXT = 1 (R74). -/
def asksNext : Instr → Bool
  | .wrCtrlNext _ => true
  | .wrCtrlInitNext _ => true
  | _ => false

/-- The unmapped addresses (44_host_transactions.md R167). -/
def isUnmapped (addr : Addr) : Bool :=
  Addr.within addr 0x02 0x07 || Addr.within addr 0x0B 0x0F || Addr.within addr 0x28 0x3F

end Sys2Proof.Machine
end

