-- ==== Sys2Proof/Certificates/Slice0/Obligations.lean ====
section
/-! DEFINITION. The statements for the provers, file by file of the spec's numbered rules. -/

open Sys2Proof Sys2Proof.Machine

/-! ### Encoding (30_encoding.md) -/

/-- 30_encoding.md R71: the number of a TX word is ((WE << 6) | ADDR) above the 32 bits of WDATA. -/
def Obligations.TransactionWordLayout : Prop :=
  ∀ x : Tx, x.bits.toNat = (x.we.toNat * 64 + x.addr.toNat) * 2 ^ 32 + x.wdata.toNat ∧ Tx.ofBits x.bits = x

/-- 30_encoding.md R72: reads that differ only in TX[31:0] are the same transaction; the canonical one has 0 there. -/
def Obligations.ReadIgnoresWdata : Prop :=
  ∀ (a : Addr) (w w' : Word),
    decode (Tx.bits ⟨false, a, w⟩) = decode (Tx.bits ⟨false, a, w'⟩) ∧
    encode (decode (Tx.bits ⟨false, a, w⟩)) = Tx.bits ⟨false, a, 0⟩

/-- Decode and encode agree on every well-formed transaction, with every operand at every value (R71, R74, R81). -/
def Obligations.EncodeThenDecodeGivesInstruction : Prop :=
  ∀ i : Instr, i.WellFormed → decode (encode i) = i

/-- Encoding a decoded word gives the word back, for a read its canonical spelling, and what the decoder answers is
well formed (R72, R81). -/
def Obligations.DecodeThenEncodeGivesCanonicalWord : Prop :=
  ∀ b : TxWord, (decode b).WellFormed ∧
    encode (decode b) = if b.getLsbD 38 then b else b &&& 0x7F00000000#39

/-- 30_encoding.md R76, R81 and opcode_table.json: every 39-bit word matches exactly one row of the table, and the
decoder gives that row's instruction. -/
def Obligations.EveryWordSelectsExactlyOneRow : Prop :=
  ∀ b : TxWord, (opcodeTable.filter fun r => r.selects b).map Row.mnemonic = [(decode b).mnemonic]

/-- Words written out from R71 and R81 decode to the transactions they stand for (95_test_vectors.md §2.7). -/
def Obligations.WrittenOutWordsDecode : Prop :=
  decode 0x0100000000#39 = .rdVersion ∧
  decode 0x09DEADBEEF#39 = .rdStatus ∧
  decode 0x1700000000#39 = .rdBlock 7 ∧
  decode 0x2300000000#39 = .rdDigest 3 ∧
  decode 0x3F00000000#39 = .rdUnmapped30 0x3F#6 ∧
  decode 0x4800000001#39 = .wrCtrlInit 0 ∧
  decode 0x48FFFFFFFF#39 = .wrCtrlInitNext 0x3FFFFFFF#30 ∧
  decode 0x4A00000005#39 = .wrBlocks 5 ∧
  decode 0x5F00000018#39 = .wrBlock 15 0x18 ∧
  decode 0x67FFFFFFFF#39 = .wrDigest 7 0xFFFFFFFF

/-! ### Host transactions (44_host_transactions.md)

`rdata` is the model's record of the RDATA that the latest transaction returned, none for a write (log 3, the model's
choice). -/

/-- R151, R152, R153: the constant reads, in every state. Nothing else changes. -/
def Obligations.ConstantReadsAnswer : Prop :=
  ∀ (w : Word) (s : State),
    decode (Tx.bits ⟨false, 0x00, w⟩) = .rdId ∧
    exec .rdId s = .next { s with rdata := some 0x53484132 } ∧
    decode (Tx.bits ⟨false, 0x01, w⟩) = .rdVersion ∧
    exec .rdVersion s = .next { s with rdata := some 0x00000001 } ∧
    decode (Tx.bits ⟨false, 0x08, w⟩) = .rdCtrl ∧
    exec .rdCtrl s = .next { s with rdata := some 0 }

/-- R161 and 10_state.md R36: STATUS reads ERR in bit 2, VALID in bit 1, READY in bit 0, and nothing else changes. -/
def Obligations.StatusReadAnswersFlags : Prop :=
  ∀ (w : Word) (s : State),
    decode (Tx.bits ⟨false, 0x09, w⟩) = .rdStatus ∧
    exec .rdStatus s = .next { s with rdata := some (BitVec.ofNat 32
      ((if s.err then 4 else 0) + (if s.valid then 2 else 0) + (if s.phase = .idle then 1 else 0))) }

/-- R161: STATUS never reads 2 or 6 where the invariant of 10_state.md R37 holds. -/
def Obligations.StatusNeverReadsTwoOrSix : Prop :=
  ∀ s : State, s.Inv → ∃ w : Word, exec .rdStatus s = .next { s with rdata := some w } ∧
    (w = 0 ∨ w = 1 ∨ w = 3 ∨ w = 4 ∨ w = 5 ∨ w = 7)

/-- R162, R164, R165: BLOCKS, BLK[j] and HS[k] are read as they are, in every phase. Nothing else changes. -/
def Obligations.RegisterReadsAnswer : Prop :=
  ∀ (w : Word) (j : Fin 16) (k : Fin 8) (s : State),
    decode (Tx.bits ⟨false, 0x0A, w⟩) = .rdBlocks ∧
    exec .rdBlocks s = .next { s with rdata := some s.blocks } ∧
    decode (Tx.bits ⟨false, 0x10 + BitVec.ofNat 6 j, w⟩) = .rdBlock j ∧
    exec (.rdBlock j) s = .next { s with rdata := some s.blk[j] } ∧
    decode (Tx.bits ⟨false, 0x20 + BitVec.ofNat 6 k, w⟩) = .rdDigest k ∧
    exec (.rdDigest k) s = .next { s with rdata := some s.hs[k] }

/-- R167: every unmapped read answers 0 and changes nothing else, for each of the six rows. -/
def Obligations.UnmappedReadsAnswerZero : Prop :=
  (∀ (a : Addr) (w : Word) (s : State), isUnmapped a = true →
    exec (decode (Tx.bits ⟨false, a, w⟩)) s = .next { s with rdata := some 0 }) ∧
  ∀ (a : Addr) (s : State), ∀ i ∈ [Instr.rdUnmapped02 a, .rdUnmapped04 a, .rdUnmapped0B a, .rdUnmapped0C a,
    .rdUnmapped28 a, .rdUnmapped30 a], exec i s = .next { s with rdata := some 0 }

/-- R166: a write to a read-only register has no effect. That it leaves `rdata` empty is the model's choice (log 3). -/
def Obligations.ReadOnlyWritesHaveNoEffect : Prop :=
  ∀ (d : Word) (k : Fin 8) (s : State),
    decode (Tx.bits ⟨true, 0x00, d⟩) = .wrId d ∧ exec (.wrId d) s = .next { s with rdata := none } ∧
    decode (Tx.bits ⟨true, 0x01, d⟩) = .wrVersion d ∧ exec (.wrVersion d) s = .next { s with rdata := none } ∧
    decode (Tx.bits ⟨true, 0x09, d⟩) = .wrStatus d ∧ exec (.wrStatus d) s = .next { s with rdata := none } ∧
    decode (Tx.bits ⟨true, 0x0A, d⟩) = .wrBlocks d ∧ exec (.wrBlocks d) s = .next { s with rdata := none } ∧
    decode (Tx.bits ⟨true, 0x20 + BitVec.ofNat 6 k, d⟩) = .wrDigest k d ∧
    exec (.wrDigest k d) s = .next { s with rdata := none }

/-- R168: a write to an unmapped address has no effect, for each of the six rows. That it leaves `rdata` empty is the
model's choice (log 3). -/
def Obligations.UnmappedWritesHaveNoEffect : Prop :=
  (∀ (a : Addr) (d : Word) (s : State), isUnmapped a = true →
    exec (decode (Tx.bits ⟨true, a, d⟩)) s = .next { s with rdata := none }) ∧
  ∀ (a : Addr) (d : Word) (s : State), ∀ i ∈ [Instr.wrUnmapped02 a d, .wrUnmapped04 a d, .wrUnmapped0B a d,
    .wrUnmapped0C a d, .wrUnmapped28 a d, .wrUnmapped30 a d], exec i s = .next { s with rdata := none }

/-- R154: a CTRL write with INIT = NEXT = 0 has no effect in any state, whatever its reserved bits. That it
leaves `rdata` empty is the model's choice (log 3). -/
def Obligations.CtrlWriteOfNoCommandHasNoEffect : Prop :=
  ∀ (d : Word) (s : State), d.getLsbD 0 = false → d.getLsbD 1 = false →
    decode (Tx.bits ⟨true, 0x08, d⟩) = .wrCtrlNop (d.extractLsb' 2 30) ∧
    exec (.wrCtrlNop (d.extractLsb' 2 30)) s = .next { s with rdata := none }

/-- R163: BLK[j] <- WDATA in every phase; the other words and every other field stay, and a read of BLK[j] then
answers the word (20_memory.md R58). That the write leaves `rdata` empty is the model's choice (log 3). -/
def Obligations.BlockWriteStoresWord : Prop :=
  ∀ (j : Fin 16) (d : Word) (s : State), ∃ t : State,
    decode (Tx.bits ⟨true, 0x10 + BitVec.ofNat 6 j, d⟩) = .wrBlock j d ∧
    exec (.wrBlock j d) s = .next t ∧
    t = { s with blk := t.blk, rdata := none } ∧
    (∀ k : Fin 16, t.blk[k] = if k = j then d else s.blk[k]) ∧
    exec (.rdBlock j) t = .next { t with rdata := some d }

/-- R155, R159: INIT while IDLE performs DoInit and nothing else, whatever the reserved bits. That it leaves `rdata`
empty is the model's choice (log 3). -/
def Obligations.InitWhileIdlePerformsDoInit : Prop :=
  ∀ (r : BitVec 30) (s : State), s.phase = .idle →
    decode (Tx.bits ⟨true, 0x08, r ++ 1#2⟩) = .wrCtrlInit r ∧
    exec (.wrCtrlInit r) s =
      .next { s with hs := IV, blocks := 0, valid := false, err := false, rdata := none }

/-- R156, R160: NEXT while IDLE latches BLK, loads a..h from HS and enters ROUND at T = 0, and nothing else.
That it leaves `rdata` empty is the model's choice (log 3). -/
def Obligations.NextWhileIdlePerformsDoNext : Prop :=
  ∀ (r : BitVec 30) (s : State), s.phase = .idle →
    decode (Tx.bits ⟨true, 0x08, r ++ 2#2⟩) = .wrCtrlNext r ∧
    exec (.wrCtrlNext r) s =
      .next { s with
        win := s.blk
        v := ⟨s.hs[0], s.hs[1], s.hs[2], s.hs[3], s.hs[4], s.hs[5], s.hs[6], s.hs[7]⟩
        t := 0, phase := .round, valid := false, rdata := none }

/-- R157: INIT and NEXT in one write: DoNext reads the HS that DoInit wrote. That it leaves `rdata` empty is the
model's choice (log 3). -/
def Obligations.InitNextWhileIdlePerformsBoth : Prop :=
  ∀ (r : BitVec 30) (s : State), s.phase = .idle →
    decode (Tx.bits ⟨true, 0x08, r ++ 3#2⟩) = .wrCtrlInitNext r ∧
    exec (.wrCtrlInitNext r) s =
      .next { s with
        hs := IV, blocks := 0, err := false
        win := s.blk
        v := ⟨IV[0], IV[1], IV[2], IV[3], IV[4], IV[5], IV[6], IV[7]⟩
        t := 0, phase := .round, valid := false, rdata := none }

/-- R158: a command while busy is rejected: its only effect on the hardware is ERR <- 1. That it leaves
`rdata` empty is the model's choice (log 3). -/
def Obligations.CommandWhileBusyOnlySetsErr : Prop :=
  ∀ (r : BitVec 30) (s : State), s.phase ≠ .idle →
    ∀ i ∈ [Instr.wrCtrlInit r, .wrCtrlNext r, .wrCtrlInitNext r],
      exec i s = .next { s with err := true, rdata := none }

/-- R150: every transaction has an effect in every state, and none changes a..h, WIN, T or PHASE but an accepted CTRL
write with NEXT = 1; none touches EVENTS, DONE_Q, the host's program or the interleaving. -/
def Obligations.EveryTransactionCompletes : Prop :=
  ∀ (i : Instr) (s : State), ∃ t : State, exec i s = .next t ∧
    (asksNext i = true ∧ s.phase = .idle ∨ t.v = s.v ∧ t.win = s.win ∧ t.t = s.t ∧ t.phase = s.phase) ∧
    t.events = s.events ∧ t.doneQ = s.doneQ ∧ t.host = s.host ∧ t.sched = s.sched

/-- 20_memory.md R55, R56 and R169: a read at any address answers what the register map names there and changes
nothing else; the same read repeated answers the same. -/
def Obligations.ReadAnswersRegisterMap : Prop :=
  ∀ (a : Addr) (w : Word) (s : State),
    exec (decode (Tx.bits ⟨false, a, w⟩)) s = .next { s with rdata := some (s.readReg a) } ∧
    ({ s with rdata := some (s.readReg a) } : State).readReg a = s.readReg a

/-- 20_memory.md R55: a write outside CTRL and BLOCK has no effect. That it leaves `rdata` empty is the model's choice
(log 3). -/
def Obligations.WritesOutsideCtrlAndBlockHaveNoEffect : Prop :=
  ∀ (a : Addr) (d : Word) (s : State), a ≠ 0x08 → Addr.within a 0x10 0x1F = false →
    exec (decode (Tx.bits ⟨true, a, d⟩)) s = .next { s with rdata := none }

/-! ### State and its writers (10_state.md) -/

/-- 10_state.md R39: which transactions may write HS, BLK, WIN, a..h, VALID, BLOCKS and EVENTS. -/
def Obligations.TransactionsWriteOnlyTheirElements : Prop :=
  ∀ (i : Instr) (s t : State), exec i s = .next t →
    (t.hs ≠ s.hs → asksInit i = true ∧ s.phase = .idle) ∧
    (t.blocks ≠ s.blocks → asksInit i = true ∧ s.phase = .idle) ∧
    (t.v ≠ s.v → asksNext i = true ∧ s.phase = .idle) ∧
    (t.win ≠ s.win → asksNext i = true ∧ s.phase = .idle) ∧
    (t.valid ≠ s.valid → (asksInit i = true ∨ asksNext i = true) ∧ s.phase = .idle) ∧
    (t.blk ≠ s.blk → ∃ j d, i = .wrBlock j d) ∧
    t.events = s.events

/-- 10_state.md R27: ERR is set by a command written while busy, cleared by an accepted INIT, and changed by no other
transaction and by no engine step; reset clears it. -/
def Obligations.ErrFlagFollowsCommands : Prop :=
  (∀ (i : Instr) (s t : State), exec i s = .next t →
    t.err = if s.phase = .idle then s.err && !asksInit i else s.err || asksInit i || asksNext i) ∧
  (∀ s : State, (engineStep s).err = s.err) ∧
  ∀ s : State, s.applyReset.err = false

/-- 10_state.md R38, R36: the state after reset, element by element, and STATUS then reads 1. -/
def Obligations.ResetValues : Prop :=
  State.reset.hs = #v[0x6a09e667, 0xbb67ae85, 0x3c6ef372, 0xa54ff53a, 0x510e527f, 0x9b05688c, 0x1f83d9ab,
    0x5be0cd19] ∧
  State.reset.v = ⟨0, 0, 0, 0, 0, 0, 0, 0⟩ ∧ State.reset.t = 0 ∧ State.reset.phase = .idle ∧
  State.reset.valid = false ∧ State.reset.err = false ∧
  (∀ j : Fin 16, State.reset.blk[j] = 0 ∧ State.reset.win[j] = 0) ∧
  State.reset.blocks = 0 ∧ State.reset.doneQ = false ∧ State.reset.status = 1

/-- 70_reset_and_hazards.md R220, R221: a reset in any state, also during a pass, by its own step or by rst in a clock
cycle, sets every element to its reset value, appends no event, and lets no transaction and no engine step take
effect. That `rdata`, `host` and the rest of `sched` are kept is the model's choice (log 13). -/
def Obligations.ResetStepAbortsAndReinitialises : Prop :=
  ∀ (s : State) (p : Pins) (q : List Turn), p.rst = true →
    ∀ u ∈ [Turn.reset, .clock p],
      step { s with sched := u :: q } =
        .next { State.reset with events := s.events, rdata := s.rdata, host := s.host, sched := q }

/-- The invariant of 10_state.md R37 holds after reset. -/
def Obligations.ResetStateMeetsInvariant : Prop := State.reset.Inv

/-- 10_state.md R37: every step, of any kind, keeps the invariant. -/
def Obligations.EveryStepKeepsInvariant : Prop :=
  ∀ s s' : State, s.Inv → step s = .next s' → s'.Inv

/-! ### Datapath functions and tables (40_datapath_functions.md) -/

/-- R100: bit i of rotr(x, n) is bit (i + n) mod 32 of x, and rotr(1, n) = 1 << (32 − n). -/
def Obligations.RotrMovesEveryBit : Prop :=
  ∀ (x : Word) (n : Nat), 1 ≤ n → n ≤ 31 →
    (∀ i : Nat, i < 32 → (rotr x n).getLsbD i = x.getLsbD ((i + n) % 32)) ∧
    rotr 1 n = BitVec.ofNat 32 (2 ^ (32 - n))

/-- R101: shr(x, n) is the floor of x / 2^n. -/
def Obligations.ShrIsFloorDivision : Prop :=
  ∀ (x : Word) (n : Nat), n ≤ 32 → (shr x n).toNat = x.toNat / 2 ^ n ∧ (shr x n).toNat < 2 ^ (32 - n)

/-- R108, R109: Ch chooses f or g by the bit of e; Maj is the majority bit. -/
def Obligations.ChooseAndMajorityBits : Prop :=
  ∀ (x y z : Word) (i : Nat), i < 32 →
    (ch x y z).getLsbD i = (if x.getLsbD i then y.getLsbD i else z.getLsbD i) ∧
    ((maj x y z).getLsbD i = true ↔
      2 ≤ (x.getLsbD i).toNat + (y.getLsbD i).toNat + (z.getLsbD i).toNat)

/-- R104 to R107: the four word functions XOR three bits each, those shifted in by shr being 0. -/
def Obligations.SigmaFunctionBits : Prop :=
  ∀ (x : Word) (i : Nat), i < 32 →
    (sigma0 x).getLsbD i = ((x.getLsbD ((i + 7) % 32) ^^ x.getLsbD ((i + 18) % 32)) ^^ x.getLsbD (i + 3)) ∧
    (sigma1 x).getLsbD i = ((x.getLsbD ((i + 17) % 32) ^^ x.getLsbD ((i + 19) % 32)) ^^ x.getLsbD (i + 10)) ∧
    (bigSigma0 x).getLsbD i =
      ((x.getLsbD ((i + 2) % 32) ^^ x.getLsbD ((i + 13) % 32)) ^^ x.getLsbD ((i + 22) % 32)) ∧
    (bigSigma1 x).getLsbD i =
      ((x.getLsbD ((i + 6) % 32) ^^ x.getLsbD ((i + 11) % 32)) ^^ x.getLsbD ((i + 25) % 32))

/-- R110, R111: K[i] is the first 32 bits of the fractional part of the cube root of the (i+1)-th prime, and IV[k] of the
square root of the (k+1)-th prime. -/
def Obligations.TablesAreRootsOfPrimes : Prop :=
  (∀ i : Fin 64, ∃ n : Nat, n ^ 3 ≤ Nat.nth Nat.Prime i * 2 ^ 96 ∧ Nat.nth Nat.Prime i * 2 ^ 96 < (n + 1) ^ 3 ∧
    K[i] = BitVec.ofNat 32 n) ∧
  ∀ k : Fin 8, ∃ n : Nat, n ^ 2 ≤ Nat.nth Nat.Prime k * 2 ^ 64 ∧ Nat.nth Nat.Prime k * 2 ^ 64 < (n + 1) ^ 2 ∧
    IV[k] = BitVec.ofNat 32 n

/-! ### Scheduler, rounds, feedback (41, 42, 43) -/

/-- 41_message_scheduler.md R120: the recurrence of the message schedule. -/
def Obligations.ScheduleRecurrence : Prop :=
  ∀ m : Block,
    (∀ j : Fin 16, scheduleWord m j = m[j]) ∧
    ∀ t : Nat, 16 ≤ t → t ≤ 63 → scheduleWord m t =
      scheduleWord m (t - 16) +
        (rotr (scheduleWord m (t - 15)) 7 ^^^ rotr (scheduleWord m (t - 15)) 18 ^^^
          shr (scheduleWord m (t - 15)) 3) +
        scheduleWord m (t - 7) +
        (rotr (scheduleWord m (t - 2)) 17 ^^^ rotr (scheduleWord m (t - 2)) 19 ^^^
          shr (scheduleWord m (t - 2)) 10)

/-- 42_round_function.md R130 with the window update of 41_message_scheduler.md R121: the ROUND step writes a..h, WIN,
T and PHASE as the rule says, and nothing else. -/
def Obligations.RoundStepComputesRound : Prop :=
  ∀ (s : State) (hk : s.t.toNat < 64), s.phase = .round →
    ∃ (u : State) (t1 t2 : Word), engineTurn s = .next u ∧
      t1 = s.v.h + (rotr s.v.e 6 ^^^ rotr s.v.e 11 ^^^ rotr s.v.e 25) +
        ((s.v.e &&& s.v.f) ^^^ (~~~s.v.e &&& s.v.g)) + K[s.t.toNat] + s.win[0] ∧
      t2 = (rotr s.v.a 2 ^^^ rotr s.v.a 13 ^^^ rotr s.v.a 22) +
        ((s.v.a &&& s.v.b) ^^^ (s.v.a &&& s.v.c) ^^^ (s.v.b &&& s.v.c)) ∧
      (∀ j : Fin 15, u.win[j.val] = s.win[j.val + 1]) ∧
      u.win[15] = sigma1 s.win[14] + s.win[9] + sigma0 s.win[1] + s.win[0] ∧
      u = { s with
        v := ⟨t1 + t2, s.v.a, s.v.b, s.v.c, s.v.d + t1, s.v.e, s.v.f, s.v.g⟩
        win := u.win
        t := s.t + 1
        phase := if s.t = 63 then .final else .round }

/-- 43_block_feedback.md R140: the FINAL step, word by word, and nothing else. -/
def Obligations.FinalStepFeedsBack : Prop :=
  ∀ s : State, s.phase = .final →
    engineTurn s = .next { s with
      hs := #v[s.hs[0] + s.v.a, s.hs[1] + s.v.b, s.hs[2] + s.v.c, s.hs[3] + s.v.d,
        s.hs[4] + s.v.e, s.hs[5] + s.v.f, s.hs[6] + s.v.g, s.hs[7] + s.v.h]
      events := s.events ++ [⟨s.blocks⟩]
      blocks := s.blocks + 1
      valid := true
      phase := .idle
      t := 0
      doneQ := true }

/-- 10_state.md R24, 60_exceptions.md R211: in IDLE the engine takes no step. A turn of the engine in IDLE is the
model's choice (log 11). -/
def Obligations.IdleEngineHoldsState : Prop :=
  ∀ s : State, s.phase = .idle → engineTurn s = .next s

/-- 41_message_scheduler.md R122, 42_round_function.md R132, R133: an accepted NEXT or INIT+NEXT starts a pass on the
block in BLK, from HS or from IV. -/
def Obligations.AcceptedNextStartsPass : Prop :=
  ∀ (s t : State) (r : BitVec 30) (withInit : Bool), s.phase = .idle →
    exec (startInstr withInit r) s = .next t →
    InPass (if withInit then IV else s.hs) s.blk t ∧ t.phase = .round ∧ t.t = 0

/-- 41_message_scheduler.md R122, 42_round_function.md R132, R133: while the engine stays busy, every step, of host,
engine, reset or clock, keeps the pass: WIN[j] = W_(T+j), a..h after T rounds, HS the chaining value. -/
def Obligations.EveryStepKeepsPass : Prop :=
  ∀ (hs : HashState) (m : Block) (s s' : State), InPass hs m s → s.phase ≠ .idle → step s = .next s' →
    s'.phase ≠ .idle → InPass hs m s'

/-- 43_block_feedback.md R141, 20_memory.md R61: whatever host transactions are interleaved, also writes to BLK and
rejected commands, a pass on block M from H ends at its 65th engine step with HS = Compress(H, M), the count
advanced and one BlockDone event with the old count. -/
def Obligations.PassComputesCompress : Prop :=
  ∀ (s : State) (r : BitVec 30) (withInit : Bool) (rest : List HostOp) (turns : List Turn),
    s.phase = .idle →
    s.host = .tx (encode (startInstr withInit r)) :: rest →
    s.sched = .host :: (turns ++ [.engine]) →
    (∀ u ∈ turns, u.isAgent) → turns.count .engine = 64 →
    ∃ t : State, run (turns.length + 2) s = .next t ∧
      t.hs = compress (if withInit then IV else s.hs) s.blk ∧
      t.phase = .idle ∧ t.t = 0 ∧ t.valid = true ∧
      t.blocks = (if withInit then 0 else s.blocks) + 1 ∧
      t.events = s.events ++ [⟨if withInit then 0 else s.blocks⟩]

/-- 70_reset_and_hazards.md R230, 10_state.md R23, R24: after an accepted NEXT and n ≤ 64 engine steps the engine is
still busy with T = n, whatever the host does in between. -/
def Obligations.PassIsBusyUntilSixtyFifthEngineStep : Prop :=
  ∀ (s : State) (r : BitVec 30) (withInit : Bool) (rest : List HostOp) (turns : List Turn),
    s.phase = .idle →
    s.host = .tx (encode (startInstr withInit r)) :: rest →
    s.sched = .host :: turns →
    (∀ u ∈ turns, u.isAgent) → turns.count .engine ≤ 64 →
    ∃ t : State, run (turns.length + 1) s = .next t ∧
      t.t = BitVec.ofNat 7 (turns.count .engine) ∧
      t.phase = if turns.count .engine = 64 then .final else .round

/-- 43_block_feedback.md R142, R143: block passes with no INIT between them chain through HS, count, and emit their
indices in order. -/
def Obligations.ChainedPassesFoldCompress : Prop :=
  ∀ (ms : List Block) (s : State), s.phase = .idle →
    (ms.foldl passOn s).hs = ms.foldl compress s.hs ∧
    (ms.foldl passOn s).phase = .idle ∧
    (ms.foldl passOn s).blocks = s.blocks + BitVec.ofNat 32 ms.length ∧
    (ms.foldl passOn s).events =
      s.events ++ (List.range ms.length).map fun i => ⟨s.blocks + BitVec.ofNat 32 i⟩

/-! ### The step, its agents and the clock (20_memory.md, 70_reset_and_hazards.md) -/

/-- A step in the host's turn runs exactly the transaction its word decodes to; around it the step only moves on in
the program and the interleaving and lets DONE_Q fall (20_memory.md R53, 30_encoding.md R80). `host`, `sched` and
DONE_Q at transaction level are the model's choice (logs 1, 2, 4). -/
def Obligations.HostStepRunsDecodedTransaction : Prop :=
  ∀ (s : State) (b : TxWord) (rest : List HostOp) (q : List Turn),
    s.host = .tx b :: rest → s.sched = .host :: q →
    step s = exec (decode b) { s with host := rest, sched := q, doneQ := false }

/-- The step after `withFetchWord` runs the instruction the decoder reads from the word. Placing a program so is the
model's choice (log 2), as are reading a number with its bit count as a transaction (log 10) and DONE_Q = 0 in a host
turn (log 4). -/
def Obligations.FetchWordRunsNext : Prop :=
  ∀ (s : State) (nbits w : Nat) (i : Instr), decodeTableWord nbits w = some i →
    step (s.withFetchWord nbits w) = exec i { s with doneQ := false }

/-- 30_encoding.md R79: a POLL reads its register; it ends when (rdata AND mask) = value, and is repeated
otherwise. One turn for one read of the loop is the model's choice (log 2), and so is DONE_Q = 0 after a host turn
(log 4). -/
def Obligations.PollRepeatsUntilMatch : Prop :=
  ∀ (s : State) (a : Addr) (mask value : Word) (rest : List HostOp) (q : List Turn),
    s.host = .poll a mask value :: rest → s.sched = .host :: q →
    step s = .next { s with
      rdata := some (s.readReg a)
      host := if s.readReg a &&& mask = value then rest else s.host
      sched := q
      doneQ := false }

/-- 60_exceptions.md R200, 44_host_transactions.md R150: no step faults, traps or is refused. -/
def Obligations.EveryStepCompletes : Prop := ∀ s : State, ∃ t : State, step s = .next t

/-- 60_exceptions.md R204: a command and the FINAL that ends a pass, in either order: before FINAL it is rejected,
after FINAL it is accepted. -/
def Obligations.CommandAndFinalInEitherOrder : Prop :=
  ∀ (s : State) (r : BitVec 30) (rest : List HostOp) (q : List Turn),
    s.phase = .final → s.host = .tx (encode (.wrCtrlNext r)) :: rest →
    (∃ t : State, run 2 { s with sched := .host :: .engine :: q } = .next t ∧
      t.phase = .idle ∧ t.err = true ∧ t.valid = true) ∧
    (∃ t : State, run 2 { s with sched := .engine :: .host :: q } = .next t ∧
      t.phase = .round ∧ t.err = s.err ∧ t.valid = false ∧ t.v = Vars.ofHash t.hs)

/-- 70_reset_and_hazards.md R229, 92_eei_decisions.md D14: a clock cycle without reset is the host's transaction of
that cycle followed by the engine step enabled at its start, two turns of the interleaving. Clock
turns with their own pins are the model's choice (log 7), and so is what a host or engine turn does to DONE_Q (log 4).
-/
def Obligations.ClockCycleIsAnInterleaving : Prop :=
  ∀ (s : State) (p : Pins) (q : List Turn), p.rst = false →
    step { s with sched := .clock p :: q } =
      if p.cs = true then
        if s.phase = .idle then run 1 { s with host := .tx p.tx :: s.host, sched := .host :: q }
        else run 2 { s with host := .tx p.tx :: s.host, sched := .host :: .engine :: q }
      else run 1 { s with sched := .engine :: q }

/-- 70_reset_and_hazards.md R229, 30_encoding.md R80: with a command accepted in cycle c and whatever the pins do
afterwards but reset, READY = 0 in cycles c + 1 to c + 65, READY = 1 and block_done = 1 with the pass's index in
cycle c + 66, and block_done = 0 in cycle c + 67. -/
def Obligations.PassTimingInClockCycles : Prop :=
  ∀ (s : State) (r : BitVec 30) (withInit : Bool) (later : List Pins) (rest : List Turn) (n : Nat) (p : Pins),
    s.phase = .idle →
    s.sched = .clock ⟨false, true, true, 0x08, ctrlData r true withInit⟩ :: (later.map Turn.clock ++ rest) →
    (∀ u ∈ later, u.rst = false) → 1 ≤ n → n ≤ later.length + 1 → n ≤ 67 →
    ∃ t : State, run n s = .next t ∧
      (n ≤ 65 → (t.ports p).ready = false ∧ (t.ports p).blockDone = false) ∧
      (n = 66 → (t.ports p).ready = true ∧ (t.ports p).blockDone = true ∧
        (t.ports p).blockIndex = if withInit then 0 else s.blocks) ∧
      (n = 67 → (t.ports p).blockDone = false)

/-- 30_encoding.md R80: the rdata port carries what the read transaction of the cycle answers, and 0 where the cycle
presents no read; ready is READY; block_index is BLOCKS − 1 while block_done is 1 and 0 otherwise. That
the rdata port is the same in a cycle with rst = 1, though its transaction is then lost, is the model's reading
(log 6). -/
def Obligations.PortsShowTransactionAndFlags : Prop :=
  ∀ (s : State) (p : Pins),
    (p.cs = true → p.we = false →
      exec (decode p.tx) s = .next { s with rdata := some (s.ports p).rdata }) ∧
    ((p.cs = false ∨ p.we = true) → (s.ports p).rdata = 0) ∧
    ((s.ports p).ready = true ↔ s.phase = .idle) ∧
    (s.ports p).blockDone = s.doneQ ∧
    (s.ports p).blockIndex = if s.doneQ = true then s.blocks - 1 else 0

/-- 41_message_scheduler.md R123, 10_state.md R21, R29, 93_implementation_defined.md U8, U9: what a..h and WIN hold
outside a pass is never observed: two states that differ only there stay so through every step. -/
def Obligations.ResidueIsNeverObserved : Prop :=
  ∀ s s' t t' : State, SameObservation s s' → step s = .next t → step s' = .next t' → SameObservation t t'

/-- 44_host_transactions.md R159: an accepted INIT leaves no residue: the engine is then, to every observer, as after
reset, except that BLK, the event history, DONE_Q (the port block_done), and the model's own `host` and `sched` (logs
1, 2) are as before the INIT. That `rdata` is empty after it is the model's choice (log 3). -/
def Obligations.InitLeavesNoResidue : Prop :=
  ∀ (s t : State) (r : BitVec 30), s.Inv → s.phase = .idle → exec (.wrCtrlInit r) s = .next t →
    SameObservation t { State.reset with
      blk := s.blk, events := s.events, doneQ := s.doneQ, rdata := none, host := s.host, sched := s.sched }

/-- 60_exceptions.md R208: a step of one instance is that instance's own step and leaves every other alone. A platform as
a list of instances is the model's choice (log 14). -/
def Obligations.InstancesAreIndependent : Prop :=
  ∀ (p : Platform) (n : Nat) (s : State), p[n]? = some s →
    (∃ t : State, step s = .next t ∧ (p.stepAt n)[n]? = some t) ∧
    ∀ k : Nat, k ≠ n → (p.stepAt n)[k]? = p[k]?

/-! ### The host's duties (45_host_message_protocol.md) -/

/-- R180, R181, R184: the padded stream is the message, the marker byte 0x80, Z zero bytes and be64(8 N); Z is the
least count with (N + 1 + Z) mod 64 = 56; the stream is exactly ceil((N + 9) / 64) blocks. -/
def Obligations.PaddingFillsWholeBlocks : Prop :=
  ∀ m : List Byte,
    pad m = m ++ [0x80#8] ++ List.replicate (zeroCount m.length) 0x00#8 ++ be64 (8 * m.length) ∧
    (m.length + 1 + zeroCount m.length) % 64 = 56 ∧
    (∀ z : Nat, z < zeroCount m.length → (m.length + 1 + z) % 64 ≠ 56) ∧
    (pad m).length = 64 * blockCount m.length ∧
    blockCount m.length = (m.length + 9 + 63) / 64 ∧
    (messageBlocks m).length = blockCount m.length

/-- R182, R183: the length field and the words are big-endian, and word j of block b packs the four bytes of the padded
stream from byte 4 (16 b + j) on. -/
def Obligations.WordsAndLengthAreBigEndian : Prop :=
  (∀ l : Nat, l < 2 ^ 64 → (be64 l).foldl (fun n b => 256 * n + b.toNat) 0 = l ∧ (be64 l).length = 8) ∧
  (∀ b0 b1 b2 b3 : Byte, (packWord b0 b1 b2 b3).toNat =
    b0.toNat * 2 ^ 24 + b1.toNat * 2 ^ 16 + b2.toNat * 2 ^ 8 + b3.toNat) ∧
  ∀ (m : List Byte) (b : Nat) (j : Fin 16), b < (pad m).length / 64 →
    ∃ (block : Block) (b0 b1 b2 b3 : Byte), (messageBlocks m)[b]? = some block ∧
      (pad m)[64 * b + 4 * j.val]? = some b0 ∧ (pad m)[64 * b + 4 * j.val + 1]? = some b1 ∧
      (pad m)[64 * b + 4 * j.val + 2]? = some b2 ∧ (pad m)[64 * b + 4 * j.val + 3]? = some b3 ∧
      block[j] = packWord b0 b1 b2 b3

/-- R190, R191: the digest's 32 bytes are the words' bytes, the most significant first; the string has 64 characters,
and characters 2n and 2n + 1 are the lowercase hexadecimal digits of the high and the low nibble of byte n. -/
def Obligations.DigestRendersAsLowercaseHex : Prop :=
  ∀ hs : HashState,
    (∀ (k : Fin 8) (i : Fin 4),
      (digestBytes hs)[4 * k.val + i.val]? = some (hs[k].extractLsb' (24 - 8 * i.val) 8)) ∧
    (digestBytes hs).length = 32 ∧
    (digestHex hs).length = 64 ∧
    (∀ c ∈ digestHex hs, c ∈ ("0123456789abcdef".toList)) ∧
    ∀ n : Fin 32, ∃ b : Byte, (digestBytes hs)[n.val]? = some b ∧
      (digestHex hs)[2 * n.val]? = "0123456789abcdef".toList[(b.extractLsb' 4 4).toNat]? ∧
      (digestHex hs)[2 * n.val + 1]? = "0123456789abcdef".toList[(b.extractLsb' 0 4).toNat]?

/-- R189, R185: a streaming host sends the same blocks, and runs the same program, as one that pads the whole message at
once, and refuses the messages that one refuses. What it keeps, and that a refused stream answers no block at all, is
the model's choice (log 16); the form of the program is too (log 8). -/
def Obligations.StreamingSendsTheSameBlocks : Prop :=
  ∀ chunks : List (List Byte),
    (8 * chunks.flatten.length ≤ 2 ^ 64 - 1 → Stream.empty.blocks chunks = .ok (messageBlocks chunks.flatten)) ∧
    (2 ^ 64 - 1 < 8 * chunks.flatten.length → Stream.empty.blocks chunks = .error .messageTooLong) ∧
    streamProgram chunks = messageProgram chunks.flatten

/-- R186, R188, R192: a host that follows the protocol, from any state and under any interleaving with the engine, has
no command rejected, and once its last WAIT has ended the engine is idle and HS is the digest, which the eight
DIGEST reads then see. Of the forms R186 allows the program takes one, the model's choice (log 8). -/
def Obligations.ProtocolYieldsDigest : Prop :=
  ∀ (s t : State) (m : List Byte) (prog : List HostOp) (turns : List Turn) (k : Nat),
    messageProgram m = .ok prog → (∀ u ∈ turns, u.isAgent) → k ≤ turns.length →
    run k { s with host := prog, sched := turns } = .next t →
    (s.err = false → t.err = false) ∧
    (t.host.length ≤ 8 → t.phase = .idle ∧ t.valid = true ∧ t.err = false ∧ t.hs = sha256 m ∧
      t.blocks = BitVec.ofNat 32 (blockCount m.length))

/-- R186, 20_memory.md R53, 70_reset_and_hazards.md R230: from every state that meets the invariant some interleaving
of host and engine brings the protocol to its end. -/
def Obligations.ProtocolCanFinish : Prop :=
  ∀ (s : State) (m : List Byte) (prog : List HostOp), s.Inv → messageProgram m = .ok prog →
    ∃ (turns : List Turn) (t : State), (∀ u ∈ turns, u.isAgent) ∧
      run turns.length { s with host := prog, sched := turns } = .next t ∧ t.host = []

/-- R185: a message of more than 2^64 − 1 bits is refused, and no block of it is sent; any other has a program of at
least one block (R184), the block loop of R186, in the form that is the model's choice (log 8). -/
def Obligations.OverlongMessageIsRefused : Prop :=
  ∀ m : List Byte,
    (2 ^ 64 - 1 < 8 * m.length → messageProgram m = .error .messageTooLong) ∧
    (8 * m.length ≤ 2 ^ 64 - 1 → messageProgram m = .ok (blockLoop (messageBlocks m)) ∧ messageBlocks m ≠ [])
end

