-- ==== Sys2Proof/Laws/Encoding.lean ====
section
/-! SUPPORT. The fields of a TX word and the address checks. -/

namespace Sys2Proof

/-- A TX word is its three fields. -/
theorem Tx.bits_surjective (b : TxWord) : ∃ x : Tx, x.bits = b := by
  refine ⟨Tx.ofBits b, BitVec.eq_of_getLsbD_eq fun i hi => ?_⟩
  simp only [Tx.bits, Tx.ofBits, BitVec.getLsbD_append, BitVec.getLsbD_extractLsb', BitVec.getLsbD_ofBool]
  by_cases h1 : i < 32
  · simp [h1]
  · by_cases h2 : i - 32 < 6
    · simp only [h1, h2, if_true, if_false]
      simp [show 32 + (i - 32) = i by omega]
    · simp only [h1, h2, if_false]
      have h3 : i = 38 := by omega
      subst h3
      simp

/-- An address lies in a range exactly when its number does. -/
@[simp] theorem Addr.within_iff (a : Addr) (lo hi : Nat) :
    Addr.within a lo hi = true ↔ lo ≤ a.toNat ∧ a.toNat ≤ hi := by
  simp [Addr.within]

/-- The block address of word j is 0x10 + j as a number. -/
theorem blockAddr_toNat (j : Fin 16) : (blockAddr j).toNat = 16 + j.val := by
  revert j; decide

/-- The digest address of word k is 0x20 + k as a number. -/
theorem digestAddr_toNat (k : Fin 8) : (digestAddr k).toNat = 32 + k.val := by
  revert k; decide

end Sys2Proof
end

