-- ==== Sys2Proof/Laws/State.lean ====
section
/-! SUPPORT. One lemma per field per update of the state, each true by unfolding the update. -/

namespace Sys2Proof.Machine

@[simp] theorem State.answer_hs (s : State) (w : Word) : (s.answer w).hs = s.hs := rfl
@[simp] theorem State.answer_v (s : State) (w : Word) : (s.answer w).v = s.v := rfl
@[simp] theorem State.answer_t (s : State) (w : Word) : (s.answer w).t = s.t := rfl
@[simp] theorem State.answer_phase (s : State) (w : Word) : (s.answer w).phase = s.phase := rfl
@[simp] theorem State.answer_valid (s : State) (w : Word) : (s.answer w).valid = s.valid := rfl
@[simp] theorem State.answer_err (s : State) (w : Word) : (s.answer w).err = s.err := rfl
@[simp] theorem State.answer_blk (s : State) (w : Word) : (s.answer w).blk = s.blk := rfl
@[simp] theorem State.answer_win (s : State) (w : Word) : (s.answer w).win = s.win := rfl
@[simp] theorem State.answer_blocks (s : State) (w : Word) : (s.answer w).blocks = s.blocks := rfl
@[simp] theorem State.answer_events (s : State) (w : Word) : (s.answer w).events = s.events := rfl
@[simp] theorem State.answer_doneQ (s : State) (w : Word) : (s.answer w).doneQ = s.doneQ := rfl
@[simp] theorem State.answer_rdata (s : State) (w : Word) : (s.answer w).rdata = some w := rfl
@[simp] theorem State.answer_host (s : State) (w : Word) : (s.answer w).host = s.host := rfl
@[simp] theorem State.answer_sched (s : State) (w : Word) : (s.answer w).sched = s.sched := rfl

@[simp] theorem State.noAnswer_hs (s : State) : (s.noAnswer).hs = s.hs := rfl
@[simp] theorem State.noAnswer_v (s : State) : (s.noAnswer).v = s.v := rfl
@[simp] theorem State.noAnswer_t (s : State) : (s.noAnswer).t = s.t := rfl
@[simp] theorem State.noAnswer_phase (s : State) : (s.noAnswer).phase = s.phase := rfl
@[simp] theorem State.noAnswer_valid (s : State) : (s.noAnswer).valid = s.valid := rfl
@[simp] theorem State.noAnswer_err (s : State) : (s.noAnswer).err = s.err := rfl
@[simp] theorem State.noAnswer_blk (s : State) : (s.noAnswer).blk = s.blk := rfl
@[simp] theorem State.noAnswer_win (s : State) : (s.noAnswer).win = s.win := rfl
@[simp] theorem State.noAnswer_blocks (s : State) : (s.noAnswer).blocks = s.blocks := rfl
@[simp] theorem State.noAnswer_events (s : State) : (s.noAnswer).events = s.events := rfl
@[simp] theorem State.noAnswer_doneQ (s : State) : (s.noAnswer).doneQ = s.doneQ := rfl
@[simp] theorem State.noAnswer_rdata (s : State) : (s.noAnswer).rdata = none := rfl
@[simp] theorem State.noAnswer_host (s : State) : (s.noAnswer).host = s.host := rfl
@[simp] theorem State.noAnswer_sched (s : State) : (s.noAnswer).sched = s.sched := rfl

@[simp] theorem State.setBlkWord_hs (s : State) (j : Fin 16) (w : Word) : (s.setBlkWord j w).hs = s.hs := rfl
@[simp] theorem State.setBlkWord_v (s : State) (j : Fin 16) (w : Word) : (s.setBlkWord j w).v = s.v := rfl
@[simp] theorem State.setBlkWord_t (s : State) (j : Fin 16) (w : Word) : (s.setBlkWord j w).t = s.t := rfl
@[simp] theorem State.setBlkWord_phase (s : State) (j : Fin 16) (w : Word) : (s.setBlkWord j w).phase = s.phase := rfl
@[simp] theorem State.setBlkWord_valid (s : State) (j : Fin 16) (w : Word) : (s.setBlkWord j w).valid = s.valid := rfl
@[simp] theorem State.setBlkWord_err (s : State) (j : Fin 16) (w : Word) : (s.setBlkWord j w).err = s.err := rfl
@[simp] theorem State.setBlkWord_blk (s : State) (j : Fin 16) (w : Word) : (s.setBlkWord j w).blk = s.blk.set j.val w := rfl
@[simp] theorem State.setBlkWord_win (s : State) (j : Fin 16) (w : Word) : (s.setBlkWord j w).win = s.win := rfl
@[simp] theorem State.setBlkWord_blocks (s : State) (j : Fin 16) (w : Word) : (s.setBlkWord j w).blocks = s.blocks := rfl
@[simp] theorem State.setBlkWord_events (s : State) (j : Fin 16) (w : Word) : (s.setBlkWord j w).events = s.events := rfl
@[simp] theorem State.setBlkWord_doneQ (s : State) (j : Fin 16) (w : Word) : (s.setBlkWord j w).doneQ = s.doneQ := rfl
@[simp] theorem State.setBlkWord_rdata (s : State) (j : Fin 16) (w : Word) : (s.setBlkWord j w).rdata = s.rdata := rfl
@[simp] theorem State.setBlkWord_host (s : State) (j : Fin 16) (w : Word) : (s.setBlkWord j w).host = s.host := rfl
@[simp] theorem State.setBlkWord_sched (s : State) (j : Fin 16) (w : Word) : (s.setBlkWord j w).sched = s.sched := rfl

@[simp] theorem State.doInit_hs (s : State) : (s.doInit).hs = IV := rfl
@[simp] theorem State.doInit_v (s : State) : (s.doInit).v = s.v := rfl
@[simp] theorem State.doInit_t (s : State) : (s.doInit).t = s.t := rfl
@[simp] theorem State.doInit_phase (s : State) : (s.doInit).phase = s.phase := rfl
@[simp] theorem State.doInit_valid (s : State) : (s.doInit).valid = false := rfl
@[simp] theorem State.doInit_err (s : State) : (s.doInit).err = false := rfl
@[simp] theorem State.doInit_blk (s : State) : (s.doInit).blk = s.blk := rfl
@[simp] theorem State.doInit_win (s : State) : (s.doInit).win = s.win := rfl
@[simp] theorem State.doInit_blocks (s : State) : (s.doInit).blocks = 0 := rfl
@[simp] theorem State.doInit_events (s : State) : (s.doInit).events = s.events := rfl
@[simp] theorem State.doInit_doneQ (s : State) : (s.doInit).doneQ = s.doneQ := rfl
@[simp] theorem State.doInit_rdata (s : State) : (s.doInit).rdata = s.rdata := rfl
@[simp] theorem State.doInit_host (s : State) : (s.doInit).host = s.host := rfl
@[simp] theorem State.doInit_sched (s : State) : (s.doInit).sched = s.sched := rfl

@[simp] theorem State.doNext_hs (s : State) : (s.doNext).hs = s.hs := rfl
@[simp] theorem State.doNext_v (s : State) : (s.doNext).v = Vars.ofHash s.hs := rfl
@[simp] theorem State.doNext_t (s : State) : (s.doNext).t = 0 := rfl
@[simp] theorem State.doNext_phase (s : State) : (s.doNext).phase = .round := rfl
@[simp] theorem State.doNext_valid (s : State) : (s.doNext).valid = false := rfl
@[simp] theorem State.doNext_err (s : State) : (s.doNext).err = s.err := rfl
@[simp] theorem State.doNext_blk (s : State) : (s.doNext).blk = s.blk := rfl
@[simp] theorem State.doNext_win (s : State) : (s.doNext).win = s.blk := rfl
@[simp] theorem State.doNext_blocks (s : State) : (s.doNext).blocks = s.blocks := rfl
@[simp] theorem State.doNext_events (s : State) : (s.doNext).events = s.events := rfl
@[simp] theorem State.doNext_doneQ (s : State) : (s.doNext).doneQ = s.doneQ := rfl
@[simp] theorem State.doNext_rdata (s : State) : (s.doNext).rdata = s.rdata := rfl
@[simp] theorem State.doNext_host (s : State) : (s.doNext).host = s.host := rfl
@[simp] theorem State.doNext_sched (s : State) : (s.doNext).sched = s.sched := rfl

@[simp] theorem State.reject_hs (s : State) : (s.reject).hs = s.hs := rfl
@[simp] theorem State.reject_v (s : State) : (s.reject).v = s.v := rfl
@[simp] theorem State.reject_t (s : State) : (s.reject).t = s.t := rfl
@[simp] theorem State.reject_phase (s : State) : (s.reject).phase = s.phase := rfl
@[simp] theorem State.reject_valid (s : State) : (s.reject).valid = s.valid := rfl
@[simp] theorem State.reject_err (s : State) : (s.reject).err = true := rfl
@[simp] theorem State.reject_blk (s : State) : (s.reject).blk = s.blk := rfl
@[simp] theorem State.reject_win (s : State) : (s.reject).win = s.win := rfl
@[simp] theorem State.reject_blocks (s : State) : (s.reject).blocks = s.blocks := rfl
@[simp] theorem State.reject_events (s : State) : (s.reject).events = s.events := rfl
@[simp] theorem State.reject_doneQ (s : State) : (s.reject).doneQ = s.doneQ := rfl
@[simp] theorem State.reject_rdata (s : State) : (s.reject).rdata = s.rdata := rfl
@[simp] theorem State.reject_host (s : State) : (s.reject).host = s.host := rfl
@[simp] theorem State.reject_sched (s : State) : (s.reject).sched = s.sched := rfl

@[simp] theorem State.applyReset_hs (s : State) : (s.applyReset).hs = IV := rfl
@[simp] theorem State.applyReset_v (s : State) : (s.applyReset).v = ⟨0, 0, 0, 0, 0, 0, 0, 0⟩ := rfl
@[simp] theorem State.applyReset_t (s : State) : (s.applyReset).t = 0 := rfl
@[simp] theorem State.applyReset_phase (s : State) : (s.applyReset).phase = .idle := rfl
@[simp] theorem State.applyReset_valid (s : State) : (s.applyReset).valid = false := rfl
@[simp] theorem State.applyReset_err (s : State) : (s.applyReset).err = false := rfl
@[simp] theorem State.applyReset_blk (s : State) : (s.applyReset).blk = State.reset.blk := rfl
@[simp] theorem State.applyReset_win (s : State) : (s.applyReset).win = State.reset.win := rfl
@[simp] theorem State.applyReset_blocks (s : State) : (s.applyReset).blocks = 0 := rfl
@[simp] theorem State.applyReset_events (s : State) : (s.applyReset).events = s.events := rfl
@[simp] theorem State.applyReset_doneQ (s : State) : (s.applyReset).doneQ = false := rfl
@[simp] theorem State.applyReset_rdata (s : State) : (s.applyReset).rdata = s.rdata := rfl
@[simp] theorem State.applyReset_host (s : State) : (s.applyReset).host = s.host := rfl
@[simp] theorem State.applyReset_sched (s : State) : (s.applyReset).sched = s.sched := rfl

@[simp] theorem roundStep_hs (s : State) : (roundStep s).hs = s.hs := rfl
@[simp] theorem roundStep_v (s : State) : (roundStep s).v = roundVars s.v (roundConstant s.t) s.win[0] := rfl
@[simp] theorem roundStep_t (s : State) : (roundStep s).t = s.t + 1 := rfl
@[simp] theorem roundStep_phase (s : State) : (roundStep s).phase = if s.t = 63 then .final else s.phase := rfl
@[simp] theorem roundStep_valid (s : State) : (roundStep s).valid = s.valid := rfl
@[simp] theorem roundStep_err (s : State) : (roundStep s).err = s.err := rfl
@[simp] theorem roundStep_blk (s : State) : (roundStep s).blk = s.blk := rfl
@[simp] theorem roundStep_win (s : State) : (roundStep s).win = windowNext s.win := rfl
@[simp] theorem roundStep_blocks (s : State) : (roundStep s).blocks = s.blocks := rfl
@[simp] theorem roundStep_events (s : State) : (roundStep s).events = s.events := rfl
@[simp] theorem roundStep_doneQ (s : State) : (roundStep s).doneQ = s.doneQ := rfl
@[simp] theorem roundStep_rdata (s : State) : (roundStep s).rdata = s.rdata := rfl
@[simp] theorem roundStep_host (s : State) : (roundStep s).host = s.host := rfl
@[simp] theorem roundStep_sched (s : State) : (roundStep s).sched = s.sched := rfl

@[simp] theorem finalStep_hs (s : State) : (finalStep s).hs = feedback s.hs s.v := rfl
@[simp] theorem finalStep_v (s : State) : (finalStep s).v = s.v := rfl
@[simp] theorem finalStep_t (s : State) : (finalStep s).t = 0 := rfl
@[simp] theorem finalStep_phase (s : State) : (finalStep s).phase = .idle := rfl
@[simp] theorem finalStep_valid (s : State) : (finalStep s).valid = true := rfl
@[simp] theorem finalStep_err (s : State) : (finalStep s).err = s.err := rfl
@[simp] theorem finalStep_blk (s : State) : (finalStep s).blk = s.blk := rfl
@[simp] theorem finalStep_win (s : State) : (finalStep s).win = s.win := rfl
@[simp] theorem finalStep_blocks (s : State) : (finalStep s).blocks = s.blocks + 1 := rfl
@[simp] theorem finalStep_events (s : State) : (finalStep s).events = s.events ++ [⟨s.blocks⟩] := rfl
@[simp] theorem finalStep_doneQ (s : State) : (finalStep s).doneQ = true := rfl
@[simp] theorem finalStep_rdata (s : State) : (finalStep s).rdata = s.rdata := rfl
@[simp] theorem finalStep_host (s : State) : (finalStep s).host = s.host := rfl
@[simp] theorem finalStep_sched (s : State) : (finalStep s).sched = s.sched := rfl

@[simp] theorem State.beginStep_hs (s : State) : (s.beginStep).hs = s.hs := rfl
@[simp] theorem State.beginStep_v (s : State) : (s.beginStep).v = s.v := rfl
@[simp] theorem State.beginStep_t (s : State) : (s.beginStep).t = s.t := rfl
@[simp] theorem State.beginStep_phase (s : State) : (s.beginStep).phase = s.phase := rfl
@[simp] theorem State.beginStep_valid (s : State) : (s.beginStep).valid = s.valid := rfl
@[simp] theorem State.beginStep_err (s : State) : (s.beginStep).err = s.err := rfl
@[simp] theorem State.beginStep_blk (s : State) : (s.beginStep).blk = s.blk := rfl
@[simp] theorem State.beginStep_win (s : State) : (s.beginStep).win = s.win := rfl
@[simp] theorem State.beginStep_blocks (s : State) : (s.beginStep).blocks = s.blocks := rfl
@[simp] theorem State.beginStep_events (s : State) : (s.beginStep).events = s.events := rfl
@[simp] theorem State.beginStep_doneQ (s : State) : (s.beginStep).doneQ = false := rfl
@[simp] theorem State.beginStep_rdata (s : State) : (s.beginStep).rdata = s.rdata := rfl
@[simp] theorem State.beginStep_host (s : State) : (s.beginStep).host = s.host := rfl
@[simp] theorem State.beginStep_sched (s : State) : (s.beginStep).sched = s.sched.tail := rfl

@[simp] theorem State.present_hs (s : State) (b : TxWord) : (s.present b).hs = s.hs := rfl
@[simp] theorem State.present_v (s : State) (b : TxWord) : (s.present b).v = s.v := rfl
@[simp] theorem State.present_t (s : State) (b : TxWord) : (s.present b).t = s.t := rfl
@[simp] theorem State.present_phase (s : State) (b : TxWord) : (s.present b).phase = s.phase := rfl
@[simp] theorem State.present_valid (s : State) (b : TxWord) : (s.present b).valid = s.valid := rfl
@[simp] theorem State.present_err (s : State) (b : TxWord) : (s.present b).err = s.err := rfl
@[simp] theorem State.present_blk (s : State) (b : TxWord) : (s.present b).blk = s.blk := rfl
@[simp] theorem State.present_win (s : State) (b : TxWord) : (s.present b).win = s.win := rfl
@[simp] theorem State.present_blocks (s : State) (b : TxWord) : (s.present b).blocks = s.blocks := rfl
@[simp] theorem State.present_events (s : State) (b : TxWord) : (s.present b).events = s.events := rfl
@[simp] theorem State.present_doneQ (s : State) (b : TxWord) : (s.present b).doneQ = s.doneQ := rfl
@[simp] theorem State.present_rdata (s : State) (b : TxWord) : (s.present b).rdata = s.rdata := rfl
@[simp] theorem State.present_host (s : State) (b : TxWord) : (s.present b).host = .tx b :: s.host := rfl
@[simp] theorem State.present_sched (s : State) (b : TxWord) : (s.present b).sched = .host :: s.sched := rfl

end Sys2Proof.Machine
end

