-- ==== Sys2Proof/Laws/Ops.lean ====
section
/-! SUPPORT. What a command, a transaction, an engine step and a turn can do, said once. -/

namespace Sys2Proof.Machine

/-- While IDLE a command is performed. -/
theorem State.command_idle (s : State) (perform : State → State) (h : s.phase = .idle) :
    s.command perform = perform s := by simp [State.command, h]

/-- While busy a command is rejected. -/
theorem State.command_busy (s : State) (perform : State → State) (h : s.phase ≠ .idle) :
    s.command perform = s.reject := by simp [State.command, h]

/-- Everything one transaction can do: answer a read, ignore a write, store a block word, or be a command, performed
while IDLE and rejected while busy. -/
theorem exec_cases {i : Instr} {s t : State} (h : exec i s = .next t) :
    (∃ w, t = s.answer w) ∨ t = s.noAnswer ∨
    (∃ j d, i = .wrBlock j d ∧ t = (s.setBlkWord j d).noAnswer) ∨
    (∃ r, i = .wrCtrlInit r ∧ t = (s.command State.doInit).noAnswer) ∨
    (∃ r, i = .wrCtrlNext r ∧ t = (s.command State.doNext).noAnswer) ∨
    (∃ r, i = .wrCtrlInitNext r ∧ t = (s.command fun u => u.doInit.doNext).noAnswer) := by
  cases i with
  | wrBlock j d => exact .inr (.inr (.inl ⟨j, d, rfl, (Host.Outcome.next.inj h).symm⟩))
  | wrCtrlInit r => exact .inr (.inr (.inr (.inl ⟨r, rfl, (Host.Outcome.next.inj h).symm⟩)))
  | wrCtrlNext r => exact .inr (.inr (.inr (.inr (.inl ⟨r, rfl, (Host.Outcome.next.inj h).symm⟩))))
  | wrCtrlInitNext r => exact .inr (.inr (.inr (.inr (.inr ⟨r, rfl, (Host.Outcome.next.inj h).symm⟩))))
  | _ => first
    | exact .inl ⟨_, (Host.Outcome.next.inj h).symm⟩
    | exact .inr (.inl (Host.Outcome.next.inj h).symm)

/-- While busy a transaction changes at most BLK, ERR and the answer. -/
theorem exec_busy_frame {i : Instr} {s t : State} (h : exec i s = .next t) (hb : s.phase ≠ .idle) :
    t = { s with blk := t.blk, err := t.err, rdata := t.rdata } := by
  obtain ⟨w, rfl⟩ | rfl | ⟨j, d, -, rfl⟩ | ⟨r, -, rfl⟩ | ⟨r, -, rfl⟩ | ⟨r, -, rfl⟩ := exec_cases h
  all_goals first
    | rfl
    | (rw [State.command_busy _ _ hb]; rfl)

/-- The engine step of each phase. -/
theorem engineStep_idle {s : State} (h : s.phase = .idle) : engineStep s = s := by
  simp [engineStep, engineStepAt, h]

theorem engineStep_round {s : State} (h : s.phase = .round) : engineStep s = roundStep s := by
  simp [engineStep, engineStepAt, h]

theorem engineStep_final {s : State} (h : s.phase = .final) : engineStep s = finalStep s := by
  simp [engineStep, engineStepAt, h]

/-- One step is one turn on the state with the interleaving moved on. -/
theorem step_of_sched {s : State} {u : Turn} {q : List Turn} (h : s.sched = u :: q) :
    step s = takeTurn u { s with sched := q, doneQ := false } := by
  simp [step, nextTurn, State.beginStep, h]

end Sys2Proof.Machine
end

