-- ==== Sys2Proof/Laws/Engine.lean ====
section
/-! SUPPORT. The words of the window, the feedback and the schedule, and the frame of the engine's steps. -/

namespace Sys2Proof.Machine

/-- WIN[j] after the window update (41_message_scheduler.md R121). -/
theorem windowNext_get (w : Block) (j : Fin 16) :
    (windowNext w)[j] = if h : j.val + 1 < 16 then w[j.val + 1] else windowNew w := by
  simp [windowNext]

/-- HS[k] after the feedback (43_block_feedback.md R140). -/
theorem feedback_get (hs : HashState) (v : Vars) (k : Fin 8) : (feedback hs v)[k] = hs[k] + v.toVec[k] := by
  simp [feedback]

/-- The round counter counts while it is at most 63 (10_state.md R23). -/
theorem counter_succ (t : BitVec 7) (h : t.toNat ≤ 63) : (t + 1).toNat = t.toNat + 1 := by
  rw [BitVec.toNat_add]
  simp
  omega

/-- The first n schedule words are n words. -/
@[simp] theorem scheduleWords_length (m : Block) (n : Nat) : (scheduleWords m n).length = n := by
  induction n with
  | zero => rfl
  | succ n ih => simp [scheduleWords, ih]

/-- Each of the first n schedule words is W_t. -/
theorem scheduleWords_getD (m : Block) (n t : Nat) (h : t < n) :
    (scheduleWords m n).getD t 0 = scheduleWord m t := by
  induction n with
  | zero => omega
  | succ n ih =>
    by_cases h1 : t < n
    · rw [← ih h1, scheduleWords]
      simp [List.getD, List.getElem?_append, h1]
    · rw [show t = n by omega]
      rfl

/-- An engine step leaves ERR, BLK, the answer, the host's program and the interleaving alone
(10_state.md R39). -/
theorem engineStepAt_frame (p : Phase) (s : State) :
    (engineStepAt p s).err = s.err ∧ (engineStepAt p s).blk = s.blk ∧ (engineStepAt p s).rdata = s.rdata ∧
      (engineStepAt p s).host = s.host ∧ (engineStepAt p s).sched = s.sched := by
  cases p <;> exact ⟨rfl, rfl, rfl, rfl, rfl⟩

/-- The end of a POLL's read changes only the host's program. -/
theorem pollNext_frame (rest : List HostOp) (mask value : Word) (s : State) :
    pollNext rest mask value s = { s with host := (pollNext rest mask value s).host } := by
  unfold pollNext
  split
  · split <;> rfl
  · rfl

/-- While busy, HOST changes at most BLK, ERR, the answer and its own program (42_round_function.md R132). -/
theorem hostTurn_busy_frame {s t : State} (h : hostTurn s = .next t) (hb : s.phase ≠ .idle) :
    t = { s with blk := t.blk, err := t.err, rdata := t.rdata, host := t.host } := by
  unfold hostTurn at h
  split at h
  · cases h
    rfl
  · rw [exec_busy_frame h hb]
  · rename_i a m v rest hh
    cases hu : exec (decode (pollTx a)) s with
    | next u =>
      rw [hu] at h
      cases h
      rw [pollNext_frame, exec_busy_frame hu hb]
    | fault r => exact r.rec
    | refused r =>
      rw [hu] at h
      cases h

end Sys2Proof.Machine
end

