-- ==== Sys2Proof/Laws/HostProtocol.lean ====
section
/-! SUPPORT. What the host's operations over byte streams can do: blocks of an extended or shortened stream, a chunk of a
streamed message, a nibble's digit. -/

namespace Sys2Proof.Machine

/-- A byte stream has one block for each whole 64 bytes. -/
@[simp] theorem length_streamBlocks (p : List Byte) : (streamBlocks p).length = p.length / 64 := by
  simp [streamBlocks]

/-- Bytes after a block do not change it. -/
theorem streamBlock_append {p : List Byte} {b : Nat} (h : 64 * b + 64 ≤ p.length) (q : List Byte) :
    streamBlock (p ++ q) b = streamBlock p b := by
  refine congrArg Vector.ofFn (funext fun j => ?_)
  have := j.isLt
  simp only [streamWord]
  iterate 4 rw [List.getD_append _ _ _ _ (by omega)]

/-- Dropping whole blocks renumbers the rest. -/
theorem streamBlock_drop (p : List Byte) (k b : Nat) : streamBlock (p.drop (64 * k)) b = streamBlock p (k + b) := by
  refine congrArg Vector.ofFn (funext fun j => ?_)
  have e (r : Nat) : 64 * k + (4 * (16 * b + j.val) + r) = 4 * (16 * (k + b) + j.val) + r := by omega
  have e0 := e 0
  simp only [Nat.add_zero] at e0
  simp only [streamWord, List.getD_eq_getElem?_getD, List.getElem?_drop, e0, e]

/-- The whole blocks of a stream can be taken first, and the rest of its bytes later. -/
theorem streamBlocks_append (p q : List Byte) :
    streamBlocks (p ++ q) = streamBlocks p ++ streamBlocks (p.drop (64 * (p.length / 64)) ++ q) := by
  have hk : 64 * (p.length / 64) ≤ p.length := Nat.mul_div_le _ _
  rw [← List.drop_append_of_le_length hk]
  unfold streamBlocks
  have hl : (p ++ q).length / 64 =
      p.length / 64 + ((p ++ q).drop (64 * (p.length / 64))).length / 64 := by
    simp only [List.length_drop, List.length_append]; omega
  rw [hl, List.range_add, List.map_append, List.map_map]
  refine congrArg₂ _ (List.map_congr_left fun b hb => ?_) (List.map_congr_left fun b _ => ?_)
  · rw [List.mem_range] at hb
    exact streamBlock_append (by omega) q
  · exact (streamBlock_drop _ _ _).symm

/-- A chunk within the limit is taken. -/
theorem Stream.feed_ok {st : Stream} {chunk : List Byte} (h : ¬ OverLimit (st.count + chunk.length)) :
    st.feed chunk = .ok (streamBlocks (st.pending ++ chunk),
      ⟨(st.pending ++ chunk).drop (64 * ((st.pending ++ chunk).length / 64)), st.count + chunk.length⟩) := if_neg h

/-- A chunk that passes the limit is refused. -/
theorem Stream.feed_overLimit {st : Stream} {chunk : List Byte} (h : OverLimit (st.count + chunk.length)) :
    st.feed chunk = .error .messageTooLong := if_pos h

/-- A message within the limit is finished. -/
theorem Stream.finish_ok {st : Stream} (h : ¬ OverLimit st.count) :
    st.finish = .ok (streamBlocks (st.pending ++ padding st.count)) := if_neg h

/-- A message that passes the limit is not finished. -/
theorem Stream.finish_overLimit {st : Stream} (h : OverLimit st.count) :
    st.finish = .error .messageTooLong := if_pos h

end Sys2Proof.Machine
end

