-- ==== Sys2Proof/Laws/PerInstr.lean ====
section
/-! SUPPORT. Per-constructor laws. EncodesItsRow: the word of a well-formed transaction belongs to the row of
spec/opcode_table.json that carries its mnemonic. -/

namespace Sys2Proof.Laws.EncodesItsRow

/-- The word of a well-formed transaction is selected by a row of its own mnemonic. -/
def Statement (i : Instr) : Prop :=
  i.WellFormed → ∃ r ∈ opcodeTable, r.mnemonic = i.mnemonic ∧ r.selects (encode i) = true

/-- A TX word's bits under a mask that ignores WDATA are its head's bits. -/
theorem selects_of_head {we : Bool} {a : Addr} {d : Word} {name : String} {p m : TxWord}
    (hm : m &&& 0xFFFFFFFF#39 = 0#39) (h : Tx.bits ⟨we, a, 0#32⟩ &&& m = p) :
    Row.selects ⟨name, p, m⟩ (Tx.bits ⟨we, a, d⟩) = true := by
  have key : Tx.bits ⟨we, a, d⟩ &&& m = Tx.bits ⟨we, a, 0#32⟩ &&& m := by
    apply BitVec.eq_of_getLsbD_eq
    intro i hi
    simp only [Tx.bits, BitVec.getLsbD_and, BitVec.getLsbD_append]
    by_cases h1 : i < 32
    · have := congrArg (fun x => BitVec.getLsbD x i) hm
      have h2 := (by decide : ∀ k < 32, (0xFFFFFFFF#39).getLsbD k = true) i h1
      simp only [BitVec.getLsbD_and, h2, Bool.and_true] at this
      simp [this]
    · simp [h1]
  simp [Row.selects, key, h]

/-- The heads of an address range: a check over the 64 addresses. -/
theorem head_of_range {we : Bool} {lo hi : Nat} {p m : TxWord}
    (h : ∀ a : Addr, Addr.within a lo hi = true → Tx.bits ⟨we, a, 0#32⟩ &&& m = p) {a : Addr}
    (ha : Addr.within a lo hi = true) : Tx.bits ⟨we, a, 0#32⟩ &&& m = p := h a ha

/-- A CTRL write's command bits decide its row. -/
theorem selects_ctrl {r : BitVec 30} {next init : Bool} {name : String} {p : TxWord}
    (h : Tx.bits ⟨true, 0x08#6, ctrlData 0#30 next init⟩ = p) :
    Row.selects ⟨name, p, 0x7F00000003#39⟩ (txWrite 0x08#6 (ctrlData r next init)) = true := by
  have key : txWrite 0x08#6 (ctrlData r next init) &&& 0x7F00000003#39 =
      Tx.bits ⟨true, 0x08#6, ctrlData 0#30 next init⟩ := by
    apply BitVec.eq_of_getLsbD_eq
    intro i hi
    simp only [txWrite, Tx.bits, ctrlData, BitVec.getLsbD_and, BitVec.getLsbD_append]
    revert i
    cases next <;> cases init <;> intro i hi <;> interval_cases i <;> simp
  simp [Row.selects, key, h]

theorem rdId : Statement .rdId := fun _ => ⟨⟨"RD_ID", 0x0000000000#39, 0x7f00000000#39⟩, by decide, rfl, 
    selects_of_head (by decide) (by decide)⟩

theorem wrId (d : Word) : Statement (.wrId d) := fun _ => ⟨⟨"WR_ID", 0x4000000000#39, 0x7f00000000#39⟩, by decide, rfl, 
    selects_of_head (by decide) (by decide)⟩

theorem rdVersion : Statement .rdVersion := fun _ => ⟨⟨"RD_VERSION", 0x0100000000#39, 0x7f00000000#39⟩, by decide, rfl, 
    selects_of_head (by decide) (by decide)⟩

theorem wrVersion (d : Word) : Statement (.wrVersion d) := fun _ => ⟨⟨"WR_VERSION", 0x4100000000#39, 0x7f00000000#39⟩, by decide, rfl, 
    selects_of_head (by decide) (by decide)⟩

theorem rdUnmapped02 (a : Addr) : Statement (.rdUnmapped02 a) := fun h => ⟨⟨"RD_UNMAPPED_02", 0x0200000000#39, 0x7e00000000#39⟩, by decide, rfl, 
    selects_of_head (by decide) (head_of_range (by decide) h)⟩

theorem wrUnmapped02 (a : Addr) (d : Word) : Statement (.wrUnmapped02 a d) := fun h => ⟨⟨"WR_UNMAPPED_02", 0x4200000000#39, 0x7e00000000#39⟩, by decide, rfl, 
    selects_of_head (by decide) (head_of_range (by decide) h)⟩

theorem rdUnmapped04 (a : Addr) : Statement (.rdUnmapped04 a) := fun h => ⟨⟨"RD_UNMAPPED_04", 0x0400000000#39, 0x7c00000000#39⟩, by decide, rfl, 
    selects_of_head (by decide) (head_of_range (by decide) h)⟩

theorem wrUnmapped04 (a : Addr) (d : Word) : Statement (.wrUnmapped04 a d) := fun h => ⟨⟨"WR_UNMAPPED_04", 0x4400000000#39, 0x7c00000000#39⟩, by decide, rfl, 
    selects_of_head (by decide) (head_of_range (by decide) h)⟩

theorem rdUnmapped0B (a : Addr) : Statement (.rdUnmapped0B a) := fun h => ⟨⟨"RD_UNMAPPED_0B", 0x0b00000000#39, 0x7f00000000#39⟩, by decide, rfl, 
    selects_of_head (by decide) (head_of_range (by decide) h)⟩

theorem wrUnmapped0B (a : Addr) (d : Word) : Statement (.wrUnmapped0B a d) := fun h => ⟨⟨"WR_UNMAPPED_0B", 0x4b00000000#39, 0x7f00000000#39⟩, by decide, rfl, 
    selects_of_head (by decide) (head_of_range (by decide) h)⟩

theorem rdUnmapped0C (a : Addr) : Statement (.rdUnmapped0C a) := fun h => ⟨⟨"RD_UNMAPPED_0C", 0x0c00000000#39, 0x7c00000000#39⟩, by decide, rfl, 
    selects_of_head (by decide) (head_of_range (by decide) h)⟩

theorem wrUnmapped0C (a : Addr) (d : Word) : Statement (.wrUnmapped0C a d) := fun h => ⟨⟨"WR_UNMAPPED_0C", 0x4c00000000#39, 0x7c00000000#39⟩, by decide, rfl, 
    selects_of_head (by decide) (head_of_range (by decide) h)⟩

theorem rdUnmapped28 (a : Addr) : Statement (.rdUnmapped28 a) := fun h => ⟨⟨"RD_UNMAPPED_28", 0x2800000000#39, 0x7800000000#39⟩, by decide, rfl, 
    selects_of_head (by decide) (head_of_range (by decide) h)⟩

theorem wrUnmapped28 (a : Addr) (d : Word) : Statement (.wrUnmapped28 a d) := fun h => ⟨⟨"WR_UNMAPPED_28", 0x6800000000#39, 0x7800000000#39⟩, by decide, rfl, 
    selects_of_head (by decide) (head_of_range (by decide) h)⟩

theorem rdUnmapped30 (a : Addr) : Statement (.rdUnmapped30 a) := fun h => ⟨⟨"RD_UNMAPPED_30", 0x3000000000#39, 0x7000000000#39⟩, by decide, rfl, 
    selects_of_head (by decide) (head_of_range (by decide) h)⟩

theorem wrUnmapped30 (a : Addr) (d : Word) : Statement (.wrUnmapped30 a d) := fun h => ⟨⟨"WR_UNMAPPED_30", 0x7000000000#39, 0x7000000000#39⟩, by decide, rfl, 
    selects_of_head (by decide) (head_of_range (by decide) h)⟩

theorem rdCtrl : Statement .rdCtrl := fun _ => ⟨⟨"RD_CTRL", 0x0800000000#39, 0x7f00000000#39⟩, by decide, rfl, 
    selects_of_head (by decide) (by decide)⟩

theorem wrCtrlNop (r : BitVec 30) : Statement (.wrCtrlNop r) := fun _ => ⟨⟨"WR_CTRL_NOP", 0x4800000000#39, 0x7f00000003#39⟩, by decide, rfl, 
    selects_ctrl (by decide)⟩

theorem wrCtrlInit (r : BitVec 30) : Statement (.wrCtrlInit r) := fun _ => ⟨⟨"WR_CTRL_INIT", 0x4800000001#39, 0x7f00000003#39⟩, by decide, rfl, 
    selects_ctrl (by decide)⟩

theorem wrCtrlNext (r : BitVec 30) : Statement (.wrCtrlNext r) := fun _ => ⟨⟨"WR_CTRL_NEXT", 0x4800000002#39, 0x7f00000003#39⟩, by decide, rfl, 
    selects_ctrl (by decide)⟩

theorem wrCtrlInitNext (r : BitVec 30) : Statement (.wrCtrlInitNext r) := fun _ => ⟨⟨"WR_CTRL_INIT_NEXT", 0x4800000003#39, 0x7f00000003#39⟩, by decide, rfl, 
    selects_ctrl (by decide)⟩

theorem rdStatus : Statement .rdStatus := fun _ => ⟨⟨"RD_STATUS", 0x0900000000#39, 0x7f00000000#39⟩, by decide, rfl, 
    selects_of_head (by decide) (by decide)⟩

theorem wrStatus (d : Word) : Statement (.wrStatus d) := fun _ => ⟨⟨"WR_STATUS", 0x4900000000#39, 0x7f00000000#39⟩, by decide, rfl, 
    selects_of_head (by decide) (by decide)⟩

theorem rdBlocks : Statement .rdBlocks := fun _ => ⟨⟨"RD_BLOCKS", 0x0a00000000#39, 0x7f00000000#39⟩, by decide, rfl, 
    selects_of_head (by decide) (by decide)⟩

theorem wrBlocks (d : Word) : Statement (.wrBlocks d) := fun _ => ⟨⟨"WR_BLOCKS", 0x4a00000000#39, 0x7f00000000#39⟩, by decide, rfl, 
    selects_of_head (by decide) (by decide)⟩

theorem rdBlock (j : Fin 16) : Statement (.rdBlock j) := fun _ => ⟨⟨"RD_BLOCK", 0x1000000000#39, 0x7000000000#39⟩, by decide, rfl, 
    selects_of_head (by decide) (by clear * -; revert j; decide)⟩

theorem wrBlock (j : Fin 16) (d : Word) : Statement (.wrBlock j d) := fun _ => ⟨⟨"WR_BLOCK", 0x5000000000#39, 0x7000000000#39⟩, by decide, rfl, 
    selects_of_head (by decide) (by clear * -; revert j; decide)⟩

theorem rdDigest (k : Fin 8) : Statement (.rdDigest k) := fun _ => ⟨⟨"RD_DIGEST", 0x2000000000#39, 0x7800000000#39⟩, by decide, rfl, 
    selects_of_head (by decide) (by clear * -; revert k; decide)⟩

theorem wrDigest (k : Fin 8) (d : Word) : Statement (.wrDigest k d) := fun _ => ⟨⟨"WR_DIGEST", 0x6000000000#39, 0x7800000000#39⟩, by decide, rfl, 
    selects_of_head (by decide) (by clear * -; revert k; decide)⟩

end Sys2Proof.Laws.EncodesItsRow
end

