-- ==== Sys2Proof/Laws/Step.lean ====
section
/-! SUPPORT. Runs, one step at a time. -/

namespace Sys2Proof.Machine

/-- No step. -/
@[simp] theorem run_zero (s : State) : run 0 s = .next s := rfl

/-- A run of k + 1 steps whose first step answers a next state. -/
theorem run_succ {k : Nat} {s t : State} (h : step s = .next t) : run (k + 1) s = run k t := by
  rw [run, h]

/-- A run of one step is the step, where the step answers a next state. -/
theorem run_one {s t : State} (h : step s = .next t) : run 1 s = .next t := by
  rw [run_succ h, run_zero]

/-- A run splits at any step. -/
theorem run_add {j k : Nat} {s t : State} (h : run j s = .next t) : run (j + k) s = run k t := by
  induction j generalizing s with
  | zero =>
    rw [run_zero] at h
    rw [Host.Outcome.next.inj h, Nat.zero_add]
  | succ j ih =>
    rw [Nat.add_right_comm]
    rw [run] at h ⊢
    cases hs : step s with
    | next u =>
      rw [hs] at h
      exact ih h
    | fault r => exact r.rec
    | refused r =>
      rw [hs] at h
      cases h

/-- A run of any machine behind the host's interface begins with its step. -/
theorem core_run_succ (M : Host.Core) (k : Nat) (s : M.State) : M.run (k + 1) s =
    match M.step s with
    | .next s' => M.run k s'
    | .fault r => .fault r
    | .refused r => .refused r := by
  cases h : M.step s <;> simp only [Host.Core.run, h]

/-- `run` is the host interface's run of the machine. -/
theorem run_eq_core_run (k : Nat) (s : State) : run k s = Host.Core.run Sys2Proof.core k s := by
  induction k generalizing s with
  | zero => rfl
  | succ k ih =>
    have h := core_run_succ Sys2Proof.core k s
    rw [run]
    cases hs : step s with
    | next u =>
      have hs' : Sys2Proof.core.step s = .next u := hs
      rw [hs'] at h
      exact (ih u).trans h.symm
    | fault r => exact r.rec
    | refused r =>
      have hs' : Sys2Proof.core.step s = .refused r := hs
      rw [hs'] at h
      exact h.symm

end Sys2Proof.Machine
end

