-- ==== Sys2Proof/Tests/Slice0.lean ====
section
/-! SUPPORT. Tests and witnesses. Expected results are the spec's own: opcode_table.json for the encodings,
95_test_vectors.md §2 for the values. -/

namespace Sys2Proof.Tests

open Sys2Proof Sys2Proof.Machine

/-! ### The decoder: one word per row, written bit by bit from the row's encoding (opcode_table.json) -/

theorem test_decode_rdId :
    decode 0b000000011111111111111110000000000000000#39 = .rdId := by decide

theorem test_decode_wrId :
    decode 0b100000011011110101011011011111011101111#39 = .wrId 0xDEADBEEF := by decide

theorem test_decode_rdVersion :
    decode 0b000000111111111111111110000000000000000#39 = .rdVersion := by decide

theorem test_decode_wrVersion :
    decode 0b100000111011110101011011011111011101111#39 = .wrVersion 0xDEADBEEF := by decide

theorem test_decode_rdUnmapped02 :
    decode 0b000001111111111111111110000000000000000#39 = .rdUnmapped02 0x03#6 := by decide

theorem test_decode_wrUnmapped02 :
    decode 0b100001111011110101011011011111011101111#39 = .wrUnmapped02 0x03#6 0xDEADBEEF := by decide

theorem test_decode_rdUnmapped04 :
    decode 0b000011111111111111111110000000000000000#39 = .rdUnmapped04 0x07#6 := by decide

theorem test_decode_wrUnmapped04 :
    decode 0b100011111011110101011011011111011101111#39 = .wrUnmapped04 0x07#6 0xDEADBEEF := by decide

theorem test_decode_rdUnmapped0B :
    decode 0b000101111111111111111110000000000000000#39 = .rdUnmapped0B 0x0B#6 := by decide

theorem test_decode_wrUnmapped0B :
    decode 0b100101111011110101011011011111011101111#39 = .wrUnmapped0B 0x0B#6 0xDEADBEEF := by decide

theorem test_decode_rdUnmapped0C :
    decode 0b000110111111111111111110000000000000000#39 = .rdUnmapped0C 0x0D#6 := by decide

theorem test_decode_wrUnmapped0C :
    decode 0b100110111011110101011011011111011101111#39 = .wrUnmapped0C 0x0D#6 0xDEADBEEF := by decide

theorem test_decode_rdUnmapped28 :
    decode 0b010110111111111111111110000000000000000#39 = .rdUnmapped28 0x2D#6 := by decide

theorem test_decode_wrUnmapped28 :
    decode 0b110110111011110101011011011111011101111#39 = .wrUnmapped28 0x2D#6 0xDEADBEEF := by decide

theorem test_decode_rdUnmapped30 :
    decode 0b011111111111111111111110000000000000000#39 = .rdUnmapped30 0x3F#6 := by decide

theorem test_decode_wrUnmapped30 :
    decode 0b111111111011110101011011011111011101111#39 = .wrUnmapped30 0x3F#6 0xDEADBEEF := by decide

theorem test_decode_rdCtrl :
    decode 0b000100011111111111111110000000000000000#39 = .rdCtrl := by decide

theorem test_decode_wrCtrlNop :
    decode 0b100100010000000000000000000000000000100#39 = .wrCtrlNop 0x20000001#30 := by decide

theorem test_decode_wrCtrlInit :
    decode 0b100100010000000000000000000000000000101#39 = .wrCtrlInit 0x20000001#30 := by decide

theorem test_decode_wrCtrlNext :
    decode 0b100100010000000000000000000000000000110#39 = .wrCtrlNext 0x20000001#30 := by decide

theorem test_decode_wrCtrlInitNext :
    decode 0b100100010000000000000000000000000000111#39 = .wrCtrlInitNext 0x20000001#30 := by decide

theorem test_decode_rdStatus :
    decode 0b000100111111111111111110000000000000000#39 = .rdStatus := by decide

theorem test_decode_wrStatus :
    decode 0b100100111011110101011011011111011101111#39 = .wrStatus 0xDEADBEEF := by decide

theorem test_decode_rdBlocks :
    decode 0b000101011111111111111110000000000000000#39 = .rdBlocks := by decide

theorem test_decode_wrBlocks :
    decode 0b100101011011110101011011011111011101111#39 = .wrBlocks 0xDEADBEEF := by decide

theorem test_decode_rdBlock :
    decode 0b001110111111111111111110000000000000000#39 = .rdBlock 13 := by decide

theorem test_decode_wrBlock :
    decode 0b101110111011110101011011011111011101111#39 = .wrBlock 13 0xDEADBEEF := by decide

theorem test_decode_rdDigest :
    decode 0b010011011111111111111110000000000000000#39 = .rdDigest 6 := by decide

theorem test_decode_wrDigest :
    decode 0b110011011011110101011011011111011101111#39 = .wrDigest 6 0xDEADBEEF := by decide

/-- A number with a bit above bit 38 is no transaction (30_encoding.md R71). -/
theorem test_decode_too_wide : decodeWord 40 0x8000000000 = .error .notATransaction := by decide

theorem test_decode_table_word : decodeTableWord 40 0x4800000003 = some (.wrCtrlInitNext 0) := by decide

/-! ### WellFormed: an ill-formed term for each check (30_encoding.md R81) -/

theorem test_ill_formed_rdUnmapped02 :
    ¬ (Instr.rdUnmapped02 0x01#6).WellFormed ∧
    ¬ (Instr.rdUnmapped02 0x04#6).WellFormed := by decide

theorem test_ill_formed_wrUnmapped02 :
    ¬ (Instr.wrUnmapped02 0x01#6 0).WellFormed ∧
    ¬ (Instr.wrUnmapped02 0x04#6 0).WellFormed := by decide

theorem test_ill_formed_rdUnmapped04 :
    ¬ (Instr.rdUnmapped04 0x03#6).WellFormed ∧
    ¬ (Instr.rdUnmapped04 0x08#6).WellFormed := by decide

theorem test_ill_formed_wrUnmapped04 :
    ¬ (Instr.wrUnmapped04 0x03#6 0).WellFormed ∧
    ¬ (Instr.wrUnmapped04 0x08#6 0).WellFormed := by decide

theorem test_ill_formed_rdUnmapped0B :
    ¬ (Instr.rdUnmapped0B 0x0A#6).WellFormed ∧
    ¬ (Instr.rdUnmapped0B 0x0C#6).WellFormed := by decide

theorem test_ill_formed_wrUnmapped0B :
    ¬ (Instr.wrUnmapped0B 0x0A#6 0).WellFormed ∧
    ¬ (Instr.wrUnmapped0B 0x0C#6 0).WellFormed := by decide

theorem test_ill_formed_rdUnmapped0C :
    ¬ (Instr.rdUnmapped0C 0x0B#6).WellFormed ∧
    ¬ (Instr.rdUnmapped0C 0x10#6).WellFormed := by decide

theorem test_ill_formed_wrUnmapped0C :
    ¬ (Instr.wrUnmapped0C 0x0B#6 0).WellFormed ∧
    ¬ (Instr.wrUnmapped0C 0x10#6 0).WellFormed := by decide

theorem test_ill_formed_rdUnmapped28 :
    ¬ (Instr.rdUnmapped28 0x27#6).WellFormed ∧
    ¬ (Instr.rdUnmapped28 0x30#6).WellFormed := by decide

theorem test_ill_formed_wrUnmapped28 :
    ¬ (Instr.wrUnmapped28 0x27#6 0).WellFormed ∧
    ¬ (Instr.wrUnmapped28 0x30#6 0).WellFormed := by decide

theorem test_ill_formed_rdUnmapped30 :
    ¬ (Instr.rdUnmapped30 0x2F#6).WellFormed := by decide

theorem test_ill_formed_wrUnmapped30 :
    ¬ (Instr.wrUnmapped30 0x2F#6 0).WellFormed := by decide

/-! ### Small states -/

/-- The state an answer holds. -/
def after (o : Result) : Option State :=
  match o with
  | .next s => some s
  | .fault _ => none
  | .refused _ => none

/-- Idle with a result, a rejected command and three blocks counted (STATUS 0x7). -/
def idleDone : State :=
  { State.reset with valid := true, err := true, blocks := 3, hs := #v[1, 2, 3, 4, 5, 6, 7, 8] }

/-- The padded "abc" block (95_test_vectors.md §1.2). -/
def abcBlock : Block := #v[0x61626380, 0, 0, 0, 0, 0, 0, 0, 0, 0, 0, 0, 0, 0, 0, 0x18]

/-- Just after NEXT on the "abc" block from IV. -/
def busyAbc : State := ({ State.reset with blk := abcBlock } : State).doNext

/-- After round 63 of the "abc" pass (95_test_vectors.md §1.2, the table of FINAL). -/
def finalAbc : State :=
  { busyAbc with
    phase := .final, t := 64
    v := ⟨0x506e3058, 0xd39a2165, 0x04d24d6c, 0xb85e2ce9, 0x5ef50f24, 0xfb121210, 0x948d25b6, 0x961f4894⟩ }

/-! ### The transactions (95_test_vectors.md §2.7) -/

theorem test_rdId : (after (exec .rdId idleDone)).map (·.rdata) = some (some 0x53484132) := by decide

theorem test_rdVersion : (after (exec .rdVersion busyAbc)).map (·.rdata) = some (some 1) := by decide

theorem test_rdCtrl : (after (exec .rdCtrl idleDone)).map (·.rdata) = some (some 0) := by decide

theorem test_rdStatus_reset : (after (exec .rdStatus State.reset)).map (·.rdata) = some (some 1) := by decide

theorem test_rdStatus_idle_err_valid : (after (exec .rdStatus idleDone)).map (·.rdata) = some (some 7) := by decide

theorem test_rdBlocks : (after (exec .rdBlocks idleDone)).map (·.rdata) = some (some 3) := by decide

theorem test_rdBlock : (after (exec (.rdBlock 15) busyAbc)).map (·.rdata) = some (some 0x18) := by decide

theorem test_rdDigest_reset : (after (exec (.rdDigest 3) State.reset)).map (·.rdata) = some (some 0xa54ff53a) := by
  decide

theorem test_rdDigest_last : (after (exec (.rdDigest 7) State.reset)).map (·.rdata) = some (some 0x5be0cd19) := by
  decide

theorem test_rdUnmapped : (after (exec (decode 0x2800000000#39) idleDone)).map (·.rdata) = some (some 0) ∧
    (after (exec (decode 0x0F00000000#39) idleDone)).map (·.rdata) = some (some 0) := by decide

theorem test_wrUnmapped_is_no_command : after (exec (decode 0x4200000001#39) idleDone) = some idleDone ∧
    after (exec (decode 0x4C00000002#39) idleDone) = some idleDone := by decide

theorem test_wrBlock : (after (exec (.wrBlock 15 0x18) State.reset)).map (fun s => (s.blk[15], s.blk[14], s.rdata)) =
    some (0x18, 0, none) := by decide

theorem test_wrBlock_busy_keeps_window :
    (after (exec (.wrBlock 0 0x80000000) busyAbc)).map (fun s => (s.blk[0], s.win[0])) =
      some (0x80000000, 0x61626380) := by decide

theorem test_wrDigest_ignored : after (exec (.wrDigest 0 0) idleDone) = some idleDone := by decide

theorem test_wrStatus_keeps_err : (after (exec (.wrStatus 0) idleDone)).map (·.err) = some true := by decide

theorem test_wrId_wrVersion_wrBlocks_ignored : after (exec (.wrId 0) idleDone) = some idleDone ∧
    after (exec (.wrVersion 0) idleDone) = some idleDone ∧
    after (exec (.wrBlocks 5) idleDone) = some idleDone := by decide

theorem test_wrCtrlNop_reserved_bits : after (exec (decode 0x48FFFFFFFC#39) busyAbc) = some busyAbc := by decide

theorem test_wrCtrlInit_idle :
    (after (exec (.wrCtrlInit 0) idleDone)).map (fun s => (s.hs, s.blocks, s.valid, s.err, s.phase)) =
      some (IV, 0, false, false, .idle) := by decide

theorem test_wrCtrlInit_busy : after (exec (.wrCtrlInit 0) busyAbc) = some { busyAbc with err := true } := by decide

theorem test_wrCtrlNext_idle :
    (after (exec (.wrCtrlNext 0) idleDone)).map (fun s => (s.v, s.phase, s.t, s.valid, s.err)) =
      some (⟨1, 2, 3, 4, 5, 6, 7, 8⟩, .round, 0, false, true) := by decide

theorem test_wrCtrlNext_busy : after (exec (.wrCtrlNext 0) busyAbc) = some { busyAbc with err := true } := by decide

theorem test_wrCtrlInitNext_idle :
    (after (exec (decode 0x48FFFFFFFF#39) idleDone)).map (fun s => (s.v.a, s.v.h, s.blocks, s.err, s.phase)) =
      some (0x6a09e667, 0x5be0cd19, 0, false, .round) := by decide

theorem test_wrCtrlInitNext_final : after (exec (.wrCtrlInitNext 0) finalAbc) = some { finalAbc with err := true } := by
  decide

/-! ### The engine (95_test_vectors.md §1.2, §2.1, §2.8) -/

theorem test_round_zero_of_abc : (engineStep busyAbc).v =
    ⟨0x5d6aebcd, 0x6a09e667, 0xbb67ae85, 0x3c6ef372, 0xfa2a4622, 0x510e527f, 0x9b05688c, 0x1f83d9ab⟩ ∧
    (engineStep busyAbc).win[15] = 0x61626380 ∧ (engineStep busyAbc).win[14] = 0x18 ∧
    (engineStep busyAbc).t = 1 ∧ (engineStep busyAbc).phase = .round := by decide

theorem test_round_63_enters_final :
    (engineStep { busyAbc with t := 63 }).phase = .final ∧ (engineStep { busyAbc with t := 63 }).t = 64 := by decide

theorem test_final_of_abc : (engineStep finalAbc).hs =
    #v[0xba7816bf, 0x8f01cfea, 0x414140de, 0x5dae2223, 0xb00361a3, 0x96177a9c, 0xb410ff61, 0xf20015ad] ∧
    (engineStep finalAbc).blocks = 1 ∧ (engineStep finalAbc).events = [⟨0⟩] ∧
    (engineStep finalAbc).status = 3 := by decide

theorem test_final_wraps_count : (engineStep { finalAbc with blocks := 0xffffffff }).blocks = 0 ∧
    (engineStep { finalAbc with blocks := 0xffffffff }).events = [⟨4294967295⟩] := by decide

theorem test_rotr_shr : rotr 0x80000001 7 = 0x03000000 ∧ rotr 0x12345678 25 = 0x1a2b3c09 ∧
    shr 0x80000000 3 = 0x10000000 ∧ shr 0xffffffff 10 = 0x003fffff := by decide

theorem test_sigma : sigma0 0x12345678 = 0xe7fce6ee ∧ sigma1 0x12345678 = 0xa1f78649 ∧
    bigSigma0 0x6a09e667 = 0xce20b47e ∧ bigSigma1 0x12345678 = 0x3561abda ∧
    sigma0 0xffffffff = 0x1fffffff ∧ sigma1 0xffffffff = 0x003fffff := by decide

theorem test_ch_maj : ch 0xf0f0f0f0 0xaaaaaaaa 0x55555555 = 0xa5a5a5a5 ∧
    maj 0xf0f0f0f0 0xcccccccc 0xaaaaaaaa = 0xe8e8e8e8 := by decide

theorem test_schedule_of_abc : scheduleWord abcBlock 16 = 0x61626380 ∧ scheduleWord abcBlock 17 = 0x000f0000 ∧
    scheduleWord abcBlock 18 = 0x7da86405 := by decide

theorem test_round_constants : roundConstant 0 = 0x428a2f98 ∧ roundConstant 31 = 0x14292967 ∧
    roundConstant 63 = 0xc67178f2 := by decide

theorem test_padding_of_abc : streamBlocks (pad [0x61, 0x62, 0x63]) = [abcBlock] := by decide

theorem test_block_counts : [0, 55, 56, 119, 120, 184].map blockCount = [1, 1, 2, 2, 3, 4] ∧
    [0, 1, 3, 55, 56, 63].map zeroCount = [55, 54, 52, 0, 63, 56] := by decide

/-- The streaming host holds the count to 2^61 − 1 bytes, as it grows and at the end (R185). -/
theorem test_stream_limit : Stream.feed ⟨[], 2 ^ 61 - 1⟩ [0x61] = .error .messageTooLong ∧
    Stream.feed ⟨[], 2 ^ 61 - 2⟩ [0x61] = .ok ([], ⟨[0x61], 2 ^ 61 - 1⟩) ∧
    Stream.finish ⟨[], 2 ^ 61⟩ = .error .messageTooLong := ⟨rfl, rfl, rfl⟩

theorem test_digest_bytes : (digestBytes #v[0xba7816bf, 0, 0, 0, 0, 0, 0, 0x5be0cd19]).take 4 =
    [0xba, 0x78, 0x16, 0xbf] := by decide

theorem test_digest_hex : (digestHex #v[0xba7816bf, 0, 0, 0, 0, 0, 0, 0]).take 8 =
    ['b', 'a', '7', '8', '1', '6', 'b', 'f'] := by decide

theorem test_program_of_wait : opWait = .poll 0x09#6 1 1 ∧ opInitNext = .tx 0x4800000003#39 ∧
    opsRdDig.head? = some (.tx 0x2000000000#39) := by decide

theorem test_reset_while_busy : (after (step { busyAbc with sched := [.reset], events := [⟨0⟩] })).map
    (fun s => (s.hs, s.blk, s.phase, s.events, s.status)) =
      some (IV, State.reset.blk, .idle, [⟨0⟩], 1) := by decide

/-- A CTRL write with NEXT = 1 in the cycle of FINAL is rejected, and the pass ends (95_test_vectors.md §2.8). -/
theorem test_command_in_final_cycle :
    (after (step { finalAbc with sched := [.clock ⟨false, true, true, 0x08, 2⟩] })).map
      (fun s => (s.phase, s.err, s.doneQ, s.ports ⟨false, false, false, 0, 0⟩)) =
      some (.idle, true, true, ⟨0, true, true, 0⟩) := by decide

/-- A step of every row's word from reset runs it (the host's question). -/
theorem test_fetch_word : (after (step (State.reset.withFetchWord 40 0x5F00000018))).map (·.blk[15]) = some 0x18 ∧
    (after (step (State.reset.withFetchWord 40 0x0000000000))).map (·.rdata) = some (some 0x53484132) := by decide

/-! ### Witnesses: each statement's hypotheses are met together -/

theorem finalAbc_inv : finalAbc.Inv := ⟨nofun, nofun, fun _ => rfl, nofun⟩

theorem idleDone_inv : idleDone.Inv := ⟨fun _ => rfl, nofun, nofun, fun _ => rfl⟩

theorem busyAbc_inPass : InPass IV abcBlock busyAbc :=
  ⟨rfl, by decide, nofun, rfl, by decide⟩

theorem witness_EncodeThenDecodeGivesInstruction : (Instr.wrUnmapped28 0x2F#6 5).WellFormed ∧
    (Instr.rdUnmapped0B 0x0B#6).WellFormed := by decide

theorem witness_StatusNeverReadsTwoOrSix : ∃ s : State, s.Inv ∧ s.valid = true ∧ s.err = true :=
  ⟨idleDone, idleDone_inv, rfl, rfl⟩

theorem witness_UnmappedReadsAnswerZero :
    ∀ a ∈ [0x02#6, 0x07#6, 0x0B#6, 0x0F#6, 0x28#6, 0x3F#6], isUnmapped a = true := by decide

theorem witness_UnmappedWritesHaveNoEffect : isUnmapped 0x03#6 = true ∧ isUnmapped 0x0C#6 = true := by decide

theorem witness_CtrlWriteOfNoCommandHasNoEffect :
    (0xFFFFFFFC#32).getLsbD 0 = false ∧ (0xFFFFFFFC#32).getLsbD 1 = false := by decide

theorem witness_InitWhileIdlePerformsDoInit : idleDone.phase = .idle := rfl

theorem witness_NextWhileIdlePerformsDoNext : idleDone.phase = .idle := rfl

theorem witness_InitNextWhileIdlePerformsBoth : idleDone.phase = .idle := rfl

theorem witness_CommandWhileBusyOnlySetsErr : busyAbc.phase ≠ .idle ∧ finalAbc.phase ≠ .idle := by decide

theorem witness_WritesOutsideCtrlAndBlockHaveNoEffect : ∀ a ∈ [0x00#6, 0x07#6, 0x0F#6, 0x20#6, 0x3F#6],
    a ≠ 0x08 ∧ Addr.within a 0x10 0x1F = false := by decide

theorem witness_TransactionsWriteOnlyTheirElements : ∃ t : State, exec (.wrCtrlInit 0) idleDone = .next t ∧
    t.hs ≠ idleDone.hs ∧ t.blocks ≠ idleDone.blocks ∧ t.valid ≠ idleDone.valid := ⟨_, rfl, by decide⟩

theorem witness_TransactionsWriteOnlyTheirElements_next : ∃ t : State, exec (.wrCtrlNext 0) idleDone = .next t ∧
    t.v ≠ idleDone.v := ⟨_, rfl, by decide⟩

theorem witness_TransactionsWriteOnlyTheirElements_win : ∃ t : State,
    exec (.wrCtrlNext 0) { idleDone with blk := abcBlock } = .next t ∧ t.win ≠ idleDone.win := ⟨_, rfl, by decide⟩

theorem witness_TransactionsWriteOnlyTheirElements_blk : ∃ t : State, exec (.wrBlock 15 9) idleDone = .next t ∧
    t.blk ≠ idleDone.blk := ⟨_, rfl, by decide⟩

theorem witness_ErrFlagFollowsCommands : ∃ t u : State, exec (.wrCtrlNext 0) idleDone = .next t ∧
    exec (.wrCtrlInit 0) busyAbc = .next u := ⟨_, _, rfl, rfl⟩

theorem witness_ResetStepAbortsAndReinitialises : ∃ p : Pins, p.rst = true ∧ p.cs = true :=
  ⟨⟨true, true, true, 0x08, 2⟩, rfl, rfl⟩

theorem witness_EveryStepKeepsInvariant : ∃ s s' : State, s.Inv ∧ step s = .next s' :=
  ⟨finalAbc, _, finalAbc_inv, rfl⟩

theorem witness_RotrMovesEveryBit : 1 ≤ 25 ∧ 25 ≤ 31 ∧ 31 < 32 := by decide

theorem witness_ShrIsFloorDivision : 32 ≤ 32 := by decide

theorem witness_ChooseAndMajorityBits : 31 < 32 := by decide

theorem witness_SigmaFunctionBits : 31 < 32 := by decide

theorem witness_ScheduleRecurrence : 16 ≤ 63 ∧ 63 ≤ 63 := by decide

theorem witness_RoundStepComputesRound : busyAbc.t.toNat < 64 ∧ busyAbc.phase = .round ∧
    ({ busyAbc with t := 63 } : State).t.toNat < 64 := by decide

theorem witness_FinalStepFeedsBack : finalAbc.phase = .final := rfl

theorem witness_IdleEngineHoldsState : idleDone.phase = .idle := rfl

theorem witness_AcceptedNextStartsPass : ∃ t u : State, idleDone.phase = .idle ∧
    exec (startInstr true 0) idleDone = .next t ∧ exec (startInstr false 0) idleDone = .next u :=
  ⟨_, _, rfl, rfl, rfl⟩

theorem witness_EveryStepKeepsPass : ∃ s' : State, InPass IV abcBlock busyAbc ∧ busyAbc.phase ≠ .idle ∧
    step busyAbc = .next s' ∧ s'.phase ≠ .idle := ⟨_, busyAbc_inPass, by decide, rfl, by decide⟩

theorem witness_PassComputesCompress : ∃ (s : State) (turns : List Turn), s.phase = .idle ∧
    s.host = .tx (encode (startInstr true 0)) :: [.tx (encode (.wrBlock 0 7))] ∧
    s.sched = .host :: (turns ++ [.engine]) ∧ (∀ u ∈ turns, u.isAgent) ∧ turns.count .engine = 64 :=
  ⟨{ idleDone with
      host := [.tx (encode (startInstr true 0)), .tx (encode (.wrBlock 0 7))]
      sched := .host :: ((.host :: List.replicate 64 .engine) ++ [.engine]) },
    .host :: List.replicate 64 .engine, rfl, rfl, rfl,
    by simp [Turn.isAgent], by simp⟩

theorem witness_PassIsBusyUntilSixtyFifthEngineStep : ∃ (s : State) (turns : List Turn), s.phase = .idle ∧
    s.host = [.tx (encode (startInstr false 0))] ∧ s.sched = .host :: turns ∧ (∀ u ∈ turns, u.isAgent) ∧
    turns.count .engine = 64 :=
  ⟨{ idleDone with
      host := [.tx (encode (startInstr false 0))]
      sched := .host :: List.replicate 64 .engine },
    List.replicate 64 .engine, rfl, rfl, rfl, by simp [Turn.isAgent], by simp⟩

theorem witness_ChainedPassesFoldCompress : idleDone.phase = .idle := rfl

theorem witness_HostStepRunsDecodedTransaction : ∃ s : State,
    s.host = [.tx 0x5F00000018#39] ∧ s.sched = [.host] :=
  ⟨{ busyAbc with host := [.tx 0x5F00000018#39], sched := [.host] }, rfl, rfl⟩

theorem witness_FetchWordRunsNext : decodeTableWord 40 0x6700000000 = some (.wrDigest 7 0) := by decide

theorem witness_PollRepeatsUntilMatch : ∃ s : State, s.host = [opWait] ∧ s.sched = [.host] ∧
    opWait = .poll 0x09#6 0x1 0x1 :=
  ⟨{ busyAbc with host := [opWait], sched := [.host] }, rfl, rfl, by decide⟩

theorem witness_CommandAndFinalInEitherOrder : ∃ s : State, s.phase = .final ∧
    s.host = [.tx (encode (.wrCtrlNext 0))] :=
  ⟨{ finalAbc with host := [.tx (encode (.wrCtrlNext 0))] }, rfl, rfl⟩

theorem witness_ClockCycleIsAnInterleaving : (⟨false, true, true, 0x08, 2⟩ : Pins).rst = false := rfl

theorem witness_PassTimingInClockCycles : ∃ (s : State) (later : List Pins), s.phase = .idle ∧
    s.sched = .clock ⟨false, true, true, 0x08, ctrlData 0 true false⟩ :: (later.map Turn.clock ++ []) ∧
    (∀ u ∈ later, u.rst = false) ∧
    (∀ n ∈ [1, 65, 66, 67], 1 ≤ n ∧ n ≤ later.length + 1 ∧ n ≤ 67) :=
  ⟨{ idleDone with
      sched := .clock ⟨false, true, true, 0x08, ctrlData 0 true false⟩ ::
        ((List.replicate 66 (⟨false, true, true, 0x08, 3⟩ : Pins)).map Turn.clock ++ []) },
    List.replicate 66 ⟨false, true, true, 0x08, 3⟩, rfl, rfl, by simp, by simp⟩

theorem witness_PortsShowTransactionAndFlags : (⟨false, true, false, 0x27, 0⟩ : Pins).cs = true ∧
    (⟨false, true, false, 0x27, 0⟩ : Pins).we = false ∧ (⟨false, true, true, 0x27, 0⟩ : Pins).we = true := by decide

theorem witness_ResidueIsNeverObserved : ∃ s s' t t' : State, SameObservation s s' ∧ s.v ≠ s'.v ∧
    step s = .next t ∧ step s' = .next t' :=
  ⟨idleDone, { idleDone with v := ⟨1, 1, 1, 1, 1, 1, 1, 1⟩ }, _, _,
    ⟨rfl, rfl, rfl, rfl, rfl, rfl, rfl, rfl, rfl, rfl, rfl, rfl, fun h => absurd rfl h, fun h => absurd rfl h⟩,
    by decide, rfl, rfl⟩

theorem witness_InitLeavesNoResidue : ∃ t : State, idleDone.Inv ∧ idleDone.phase = .idle ∧
    exec (.wrCtrlInit 0) idleDone = .next t := ⟨_, idleDone_inv, rfl, rfl⟩

theorem witness_InstancesAreIndependent : ([busyAbc, idleDone] : Platform)[1]? = some idleDone ∧ 0 ≠ 1 := by decide

theorem witness_PaddingFillsWholeBlocks : 54 < zeroCount ([] : List Byte).length := by decide

theorem witness_WordsAndLengthAreBigEndian : 18446744073709551615 < 2 ^ 64 ∧
    1 < (pad (List.replicate 56 0x61)).length / 64 := ⟨by decide, by simp [pad, padding, zeroCount, be64]⟩

theorem witness_StreamingSendsTheSameBlocks : 8 * [[0x61#8], [], [0x62#8]].flatten.length ≤ 2 ^ 64 - 1 ∧
    ∃ chunks : List (List Byte), 2 ^ 64 - 1 < 8 * chunks.flatten.length :=
  ⟨by decide, [List.replicate (2 ^ 61) 0], by
    rw [List.flatten_cons, List.flatten_nil, List.append_nil, List.length_replicate]; decide⟩

theorem witness_ProtocolYieldsDigest : ∃ (prog : List HostOp) (t : State), messageProgram [0x61] = .ok prog ∧
    (∀ u ∈ [Turn.host, .engine], u.isAgent) ∧ 2 ≤ [Turn.host, .engine].length ∧
    run 2 { busyAbc with host := prog, sched := [.host, .engine] } = .next t ∧ busyAbc.err = false :=
  ⟨_, _, rfl, by simp [Turn.isAgent], by decide, rfl, rfl⟩

/-- An interleaving that brings the one-block program of the empty message to its DIGEST reads. -/
def oneBlockTurns : List Turn := List.replicate 18 .host ++ (List.replicate 65 .engine ++ [.host])

/-- The second clause's premise (at most the eight DIGEST reads left) is met, with the digest of the empty message
(95_test_vectors.md §1.1). -/
theorem witness_ProtocolYieldsDigest_end : messageProgram [] = .ok (blockLoop (messageBlocks [])) ∧
    (∀ u ∈ oneBlockTurns, u.isAgent) ∧ 84 ≤ oneBlockTurns.length ∧
    (after (run 84 { State.reset with host := blockLoop (messageBlocks []), sched := oneBlockTurns })).map
      (fun t => (t.host.length, t.hs)) = some (8, #v[0xe3b0c442, 0x98fc1c14, 0x9afbf4c8, 0x996fb924,
        0x27ae41e4, 0x649b934c, 0xa495991b, 0x7852b855]) :=
  ⟨rfl, by simp [oneBlockTurns, Turn.isAgent], by decide, by decide +kernel⟩

theorem witness_ProtocolCanFinish : ∃ prog : List HostOp, finalAbc.Inv ∧ messageProgram [0x61] = .ok prog :=
  ⟨_, finalAbc_inv, rfl⟩

theorem witness_OverlongMessageIsRefused : (∃ m : List Byte, 2 ^ 64 - 1 < 8 * m.length) ∧
    8 * ([] : List Byte).length ≤ 2 ^ 64 - 1 :=
  ⟨⟨List.replicate (2 ^ 61) 0, by rw [List.length_replicate]; decide⟩, by decide⟩

end Sys2Proof.Tests
end

