-- ==== Sys2Proof/Proofs/StateInvariant.lean ====
section
/-! The well-formedness of R37 is kept by every transaction, engine step and turn (10_state.md R24, R37, R38). -/

namespace Sys2Proof.Machine

/-! ### The invariant, phase by phase -/

/-- The invariant speaks of T, PHASE and VALID alone. -/
theorem State.Inv.congr {s t : State} (h : s.Inv) (ht : t.t = s.t) (hp : t.phase = s.phase)
    (hv : t.valid = s.valid) : t.Inv where
  idle := by rw [hp, ht]; exact h.idle
  round := by rw [hp, ht]; exact h.round
  final := by rw [hp, ht]; exact h.final
  valid := by rw [hp, hv]; exact h.valid

theorem State.Inv.valid_eq_false {s : State} (h : s.Inv) (hb : s.phase ≠ .idle) : s.valid = false :=
  Bool.eq_false_iff.mpr fun hv => hb (h.valid hv)

theorem State.inv_of_idle {s : State} (hp : s.phase = .idle) (ht : s.t = 0) : s.Inv where
  idle _ := ht
  round h := by simp [hp] at h
  final h := by simp [hp] at h
  valid _ := hp

theorem State.inv_of_round {s : State} (hp : s.phase = .round) (ht : s.t.toNat ≤ 63) (hv : s.valid = false) :
    s.Inv where
  idle h := by simp [hp] at h
  round _ := ht
  final h := by simp [hp] at h
  valid h := by simp [hv] at h

theorem State.inv_of_final {s : State} (hp : s.phase = .final) (ht : s.t = 64) (hv : s.valid = false) : s.Inv where
  idle h := by simp [hp] at h
  round h := by simp [hp] at h
  final _ := ht
  valid h := by simp [hv] at h

/-! ### Transactions -/

theorem State.inv_doInit {s : State} (h : s.Inv) (hp : s.phase = .idle) : s.doInit.Inv :=
  State.inv_of_idle hp (h.idle hp)

theorem State.inv_doNext (s : State) : s.doNext.Inv := State.inv_of_round rfl (by simp) rfl

/-- A command keeps the invariant when performing it in IDLE does: its rejection changes ERR alone. -/
theorem State.inv_command {s : State} {perform : State → State} (h : s.Inv)
    (hperform : s.phase = .idle → (perform s).Inv) : (s.command perform).Inv := by
  by_cases hp : s.phase = .idle
  · rw [State.command_idle _ _ hp]
    exact hperform hp
  · rw [State.command_busy _ _ hp]
    exact h.congr rfl rfl rfl

theorem exec_keeps_inv {i : Instr} {s t : State} (h : s.Inv) (hx : exec i s = .next t) : t.Inv := by
  obtain ⟨w, rfl⟩ | rfl | ⟨j, d, -, rfl⟩ | ⟨r, -, rfl⟩ | ⟨r, -, rfl⟩ | ⟨r, -, rfl⟩ := exec_cases hx
  case inl | inr.inl | inr.inr.inl => exact h.congr rfl rfl rfl
  case inr.inr.inr.inl => exact (State.inv_command h (State.inv_doInit h)).congr rfl rfl rfl
  case inr.inr.inr.inr.inl => exact (State.inv_command h fun _ => s.inv_doNext).congr rfl rfl rfl
  case inr.inr.inr.inr.inr => exact (State.inv_command h fun _ => s.doInit.inv_doNext).congr rfl rfl rfl

/-! ### Engine steps -/

/-- ROUND counts up to T = 63, and from there FINAL is next with T = 64. -/
theorem inv_roundStep {s : State} (h : s.Inv) (hp : s.phase = .round) : (roundStep s).Inv := by
  have hv : s.valid = false := h.valid_eq_false (by simp [hp])
  by_cases ht : s.t = 63
  · exact State.inv_of_final (by simp [ht]) (by simp [ht]) hv
  · have hlt : s.t.toNat ≠ 63 := fun he => ht (BitVec.eq_of_toNat_eq he)
    have hle := h.round hp
    refine State.inv_of_round (by rw [roundStep_phase, if_neg ht, hp]) ?_ hv
    rw [roundStep_t, counter_succ _ hle]
    omega

theorem engineStep_keeps_inv {s : State} (h : s.Inv) : (engineStep s).Inv := by
  cases hp : s.phase with
  | idle => rwa [engineStep_idle hp]
  | round => rw [engineStep_round hp]; exact inv_roundStep h hp
  | final => rw [engineStep_final hp]; exact State.inv_of_idle rfl rfl

/-! ### Turns -/

/-- HOST does nothing, or performs one transaction; apart from that only its own program changes. -/
theorem hostTurn_cases {s t : State} (h : hostTurn s = .next t) :
    t = s ∨ ∃ i prog u, exec i { s with host := prog } = .next u ∧ t = { u with host := t.host } := by
  unfold hostTurn at h
  split at h
  case h_1 => exact .inl (Host.Outcome.next.inj h).symm
  case h_2 b rest hh => exact .inr ⟨_, rest, t, h, rfl⟩
  case h_3 a mask value rest hh =>
    cases hu : exec (decode (pollTx a)) s with
    | next u =>
      rw [hu] at h
      cases h
      exact .inr ⟨_, s.host, u, hu, pollNext_frame rest mask value u⟩
    | fault r => exact r.rec
    | refused r => rw [hu] at h; cases h

/-- A clock cycle is a reset, or at most one transaction and then the engine step of the phase the cycle began in
(70_reset_and_hazards.md R229). -/
theorem clockTurn_cases {p : Pins} {s t : State} (h : clockTurn p s = .next t) :
    t = s.applyReset ∨ ∃ u, (u = s ∨ ∃ i, exec i s = .next u) ∧ t = engineStepAt s.phase u := by
  unfold clockTurn at h
  split at h
  · exact .inl (Host.Outcome.next.inj h).symm
  · cases hu : busCycle p s with
    | next u =>
      rw [hu] at h
      refine .inr ⟨u, ?_, (Host.Outcome.next.inj h).symm⟩
      unfold busCycle at hu
      split at hu
      · exact .inr ⟨_, hu⟩
      · exact .inl (Host.Outcome.next.inj hu).symm
    | fault r => exact r.rec
    | refused r => rw [hu] at h; cases h

theorem hostTurn_keeps_inv {s t : State} (h : s.Inv) (ht : hostTurn s = .next t) : t.Inv := by
  obtain rfl | ⟨i, prog, u, hu, he⟩ := hostTurn_cases ht
  · exact h
  · have hprog : State.Inv { s with host := prog } := h.congr rfl rfl rfl
    rw [he]
    exact (exec_keeps_inv hprog hu).congr rfl rfl rfl

/-- After a transaction the engine step of the phase before it keeps the invariant: in IDLE there is none, and while busy
no transaction changes the phase. -/
theorem engineStepAt_exec_keeps_inv {i : Instr} {s u : State} (h : s.Inv) (hu : exec i s = .next u) :
    (engineStepAt s.phase u).Inv := by
  have hui : u.Inv := exec_keeps_inv h hu
  by_cases hp : s.phase = .idle
  · rw [hp]
    exact hui
  · have hphase : u.phase = s.phase := by rw [exec_busy_frame hu hp]
    rw [← hphase]
    exact engineStep_keeps_inv hui

theorem clockTurn_keeps_inv {p : Pins} {s t : State} (h : s.Inv) (ht : clockTurn p s = .next t) : t.Inv := by
  obtain rfl | ⟨u, rfl | ⟨i, hu⟩, rfl⟩ := clockTurn_cases ht
  · exact State.inv_of_idle rfl rfl
  · exact engineStep_keeps_inv h
  · exact engineStepAt_exec_keeps_inv h hu

theorem takeTurn_keeps_inv {u : Turn} {s t : State} (h : s.Inv) (ht : takeTurn u s = .next t) : t.Inv := by
  cases u with
  | host => exact hostTurn_keeps_inv h ht
  | engine => cases ht; exact engineStep_keeps_inv h
  | reset => cases ht; exact State.inv_of_idle rfl rfl
  | clock p => exact clockTurn_keeps_inv h ht

/-- Settles O28: the step's beginning touches none of T, PHASE and VALID, and each kind of turn keeps the invariant. -/
theorem everyStepKeepsInvariant : Obligations.EveryStepKeepsInvariant := by
  intro s s' h hs
  have hbegin : s.beginStep.Inv := h.congr rfl rfl rfl
  exact takeTurn_keeps_inv hbegin hs

/-- Settles O27: reset is IDLE with T = 0. -/
theorem resetStateMeetsInvariant : Obligations.ResetStateMeetsInvariant := State.inv_of_idle rfl rfl

/-- Settles O37: IDLE enables no engine step. -/
theorem idleEngineHoldsState : Obligations.IdleEngineHoldsState := by
  intro s hp
  rw [engineTurn, engineStep_idle hp]

end Sys2Proof.Machine
end

