-- ==== Sys2Proof/Proofs/StateWriters.lean ====
section
/-! Which state elements a transaction may write, what becomes of ERR, and the values after reset (10_state.md R27, R36,
R38, R39). -/

namespace Sys2Proof.Machine

/-- A transaction that is no command changes at most BLK and the answer (R39). -/
theorem exec_frame_of_no_command {i : Instr} {s t : State} (h : exec i s = .next t) (hinit : asksInit i = false)
    (hnext : asksNext i = false) : t = { s with blk := t.blk, rdata := t.rdata } := by
  obtain ⟨w, rfl⟩ | rfl | ⟨j, d, rfl, rfl⟩ | ⟨r, rfl, rfl⟩ | ⟨r, rfl, rfl⟩ | ⟨r, rfl, rfl⟩ := exec_cases h
  case inl | inr.inl | inr.inr.inl => rfl
  case inr.inr.inr.inl | inr.inr.inr.inr.inr => cases hinit
  case inr.inr.inr.inr.inl => cases hnext

/-- ERR after a command: what performing it leaves, and 1 when it is rejected (R27). -/
theorem State.command_err (s : State) (perform : State → State) :
    (s.command perform).err = if s.phase = .idle then (perform s).err else true := by
  rw [State.command, apply_ite State.err, State.reject_err]

/-- Settles O23: a transaction that is no command writes at most BLK, and that only as WR_BLOCK; a command in IDLE writes
what DoInit and DoNext write, and a rejected one only ERR. -/
theorem transactionsWriteOnlyTheirElements : Obligations.TransactionsWriteOnlyTheirElements := by
  intro i s t h
  obtain ⟨w, rfl⟩ | rfl | ⟨j, d, rfl, rfl⟩ | ⟨r, rfl, rfl⟩ | ⟨r, rfl, rfl⟩ | ⟨r, rfl, rfl⟩ := exec_cases h
  case inl | inr.inl | inr.inr.inl => simp
  all_goals
    by_cases hp : s.phase = .idle
    · simp [State.command_idle _ _ hp, hp, asksInit, asksNext]
    · simp [State.command_busy _ _ hp]

/-- The ERR clause of R27 for transactions. -/
theorem exec_err {i : Instr} {s t : State} (h : exec i s = .next t) :
    t.err = if s.phase = .idle then s.err && !asksInit i else s.err || asksInit i || asksNext i := by
  cases i with
  | wrCtrlInit r | wrCtrlNext r | wrCtrlInitNext r =>
    obtain rfl := Host.Outcome.next.inj h
    simp [State.command_err, asksInit, asksNext]
  | _ =>
    rw [exec_frame_of_no_command h rfl rfl]
    simp [asksInit, asksNext]

/-- Settles O24: transactions by `exec_err`; engine steps do not touch ERR; reset clears it. -/
theorem errFlagFollowsCommands : Obligations.ErrFlagFollowsCommands := by
  refine ⟨fun i s t h => exec_err h, fun s => ?_, State.applyReset_err⟩
  obtain ⟨herr, -⟩ := engineStepAt_frame s.phase s
  exact herr

/-- Settles O25: `State.reset` holds the literals of R38, and its STATUS is READY alone. -/
theorem resetValues : Obligations.ResetValues :=
  ⟨rfl, rfl, rfl, rfl, rfl, rfl, by decide, rfl, rfl, rfl⟩

end Sys2Proof.Machine
end

