-- ==== Sys2Proof/Proofs/HostBus.lean ====
section
/-! The host's side of the bus: the fields of a TX word and the write rows, the writes that have no effect, and the
host's turn (20_memory.md R53 to R55, 30_encoding.md R71, R81). -/

namespace Sys2Proof

/-- Splitting a TX word gives back the three fields it was put together from (R71). -/
@[simp] theorem Tx.ofBits_bits (x : Tx) : Tx.ofBits x.bits = x := by
  obtain ⟨we, addr, wdata⟩ := x
  simp only [Tx.ofBits, Tx.bits, Tx.mk.injEq]
  refine ⟨?we, ?addr, ?wdata⟩
  case we => simp only [BitVec.getLsbD_append]; simp
  case addr =>
    rw [BitVec.extractLsb'_append_eq_of_le (by decide)]
    exact BitVec.extractLsb'_append_eq_right
  case wdata => exact BitVec.extractLsb'_append_eq_right

/-- A word with WE = 1 decodes by the write rows (R81). -/
@[simp] theorem decode_bits_write (a : Addr) (d : Word) : decode (Tx.bits ⟨true, a, d⟩) = decodeWrite a d := by
  simp [decode, Tx.decode]

end Sys2Proof

namespace Sys2Proof.Machine

/-- CTRL and BLOCK are the only write rows with an effect: with those two addresses ruled out, every row that is left
just ends the transaction (R55). -/
theorem exec_decodeWrite_ignored {a : Addr} (d : Word) (s : State) (hctrl : a ≠ 0x08#6)
    (hblock : Addr.within a 0x10 0x1F = false) : exec (decodeWrite a d) s = .next s.noAnswer := by
  simp only [decodeWrite, if_neg hctrl, hblock, Bool.false_eq_true, if_false]
  split_ifs <;> rfl

/-- Settles O22: the word decodes by the write rows, and no row outside CTRL and BLOCK has an effect. -/
theorem writesOutsideCtrlAndBlockHaveNoEffect : Obligations.WritesOutsideCtrlAndBlockHaveNoEffect := by
  intro a d s hctrl hblock
  rw [decode_bits_write]
  exact exec_decodeWrite_ignored d s hctrl hblock

/-- With a transaction next in its program, HOST performs it and moves on past it (R53). -/
theorem hostTurn_of_tx {s : State} {b : TxWord} {rest : List HostOp} (h : s.host = .tx b :: rest) :
    hostTurn s = exec (decode b) { s with host := rest } := by
  rw [hostTurn, h]

/-- Settles O43: the interleaving gives the turn to HOST, whose next operation is the transaction b. -/
theorem hostStepRunsDecodedTransaction : Obligations.HostStepRunsDecodedTransaction := by
  intro s b rest q hhost hsched
  have hnext : State.host { s with sched := q, doneQ := false } = .tx b :: rest := hhost
  calc step s = hostTurn { s with sched := q, doneQ := false } := step_of_sched hsched
    _ = exec (decode b) { s with host := rest, sched := q, doneQ := false } := hostTurn_of_tx hnext

end Sys2Proof.Machine
end

