-- ==== Sys2Proof/Proofs/Encoding.lean ====
section
/-! The encoder and the decoder undo each other, and every TX word belongs to exactly one row of the opcode table
(30_encoding.md R71 to R76, R81). -/

namespace Sys2Proof

/-! ### The fields of a TX word -/

/-- WE is bit 38 (R71). -/
theorem Tx.bits_getLsbD_we (x : Tx) : x.bits.getLsbD 38 = x.we := congrArg Tx.we (Tx.ofBits_bits x)

/-- The number of two fields side by side: the left one stands above the right one's bits. -/
theorem toNat_append_eq_add {m n : Nat} (x : BitVec m) (y : BitVec n) :
    (x ++ y).toNat = x.toNat * 2 ^ n + y.toNat := by
  rw [BitVec.toNat_append, ← Nat.shiftLeft_add_eq_or_of_lt y.isLt, Nat.shiftLeft_eq]

/-- Clearing TX[31:0] of a read gives its canonical spelling (R72). -/
theorem bits_read_and_head (a : Addr) (d : Word) : Tx.bits ⟨false, a, d⟩ &&& 0x7F00000000#39 = txRead a := by
  calc Tx.bits ⟨false, a, d⟩ &&& 0x7F00000000#39
      = (BitVec.ofBool false ++ a ++ d) &&& (BitVec.ofBool true ++ BitVec.allOnes 6 ++ 0#32) := rfl
    _ = txRead a := by
      rw [BitVec.and_append, BitVec.and_append, BitVec.and_allOnes, BitVec.and_zero]
      rfl

/-- Settles O1: the fields stand side by side, and splitting the word gives them back. -/
theorem transactionWordLayout : Obligations.TransactionWordLayout := by
  intro x
  refine ⟨?_, Tx.ofBits_bits x⟩
  rw [Tx.bits, toNat_append_eq_add, toNat_append_eq_add, BitVec.toNat_ofBool]
  rfl

/-! ### Operands -/

theorem blockAddr_blockIndex {a : Addr} (h : Addr.within a 0x10 0x1F = true) : blockAddr (blockIndex a) = a := by
  revert a; decide

theorem digestAddr_digestIndex {a : Addr} (h : Addr.within a 0x20 0x27 = true) : digestAddr (digestIndex a) = a := by
  revert a; decide

@[simp] theorem initBit_ctrlData (r : BitVec 30) (next init : Bool) : initBit (ctrlData r next init) = init := by
  simp only [initBit, ctrlData, BitVec.getLsbD_append]
  simp

@[simp] theorem nextBit_ctrlData (r : BitVec 30) (next init : Bool) : nextBit (ctrlData r next init) = next := by
  simp only [nextBit, ctrlData, BitVec.getLsbD_append]
  simp

@[simp] theorem reservedBits_ctrlData (r : BitVec 30) (next init : Bool) :
    reservedBits (ctrlData r next init) = r := by
  rw [reservedBits, ctrlData, BitVec.extractLsb'_append_eq_of_le (by decide),
    BitVec.extractLsb'_append_eq_of_le (by decide)]
  exact BitVec.extractLsb'_eq_self

/-- The reserved bits and the two command bits make up the data of a CTRL write (R74). -/
theorem ctrlData_reservedBits (d : Word) : ctrlData (reservedBits d) (nextBit d) (initBit d) = d := by
  refine BitVec.eq_of_getLsbD_eq fun i hi => ?_
  simp only [ctrlData, reservedBits, nextBit, initBit, BitVec.getLsbD_append, BitVec.getLsbD_extractLsb',
    BitVec.getLsbD_ofBool]
  match i with
  | 0 | 1 => simp
  | j + 2 =>
    simp [Nat.add_comm 2 j]
    omega

/-! ### The decoder row by row (R81) -/

/-- A word with WE = 0 decodes by the read rows, whatever its data bits are (R72). -/
@[simp] theorem decode_bits_read (a : Addr) (d : Word) : decode (Tx.bits ⟨false, a, d⟩) = decodeRead a := by
  simp [decode, Tx.decode]

@[simp] theorem decode_txRead (a : Addr) : decode (txRead a) = decodeRead a := decode_bits_read a 0#32

@[simp] theorem decode_txWrite (a : Addr) (d : Word) : decode (txWrite a d) = decodeWrite a d :=
  decode_bits_write a d

@[simp] theorem decodeWrite_ctrl (d : Word) : decodeWrite 0x08#6 d = decodeCtrl d := rfl

@[simp] theorem decodeRead_blockAddr (j : Fin 16) : decodeRead (blockAddr j) = .rdBlock j := by
  revert j; decide

@[simp] theorem decodeWrite_blockAddr (j : Fin 16) (d : Word) : decodeWrite (blockAddr j) d = .wrBlock j d := by
  fin_cases j <;> rfl

@[simp] theorem decodeRead_digestAddr (k : Fin 8) : decodeRead (digestAddr k) = .rdDigest k := by
  revert k; decide

@[simp] theorem decodeWrite_digestAddr (k : Fin 8) (d : Word) : decodeWrite (digestAddr k) d = .wrDigest k d := by
  fin_cases k <;> rfl

/-- The addresses and ranges of R81 leave no address out. -/
theorem Addr.mem_row (a : Addr) :
    a = 0x00#6 ∨ a = 0x01#6 ∨ Addr.within a 0x02 0x03 = true ∨ Addr.within a 0x04 0x07 = true ∨ a = 0x08#6 ∨
      a = 0x09#6 ∨ a = 0x0A#6 ∨ a = 0x0B#6 ∨ Addr.within a 0x0C 0x0F = true ∨ Addr.within a 0x10 0x1F = true ∨
      Addr.within a 0x20 0x27 = true ∨ Addr.within a 0x28 0x2F = true ∨ Addr.within a 0x30 0x3F = true := by
  revert a; decide

/-! ### Decoding and then encoding -/

theorem encode_decodeCtrl (d : Word) : encode (decodeCtrl d) = txWrite 0x08#6 d := by
  calc encode (decodeCtrl d) = txWrite 0x08#6 (ctrlData (reservedBits d) (nextBit d) (initBit d)) := by
        fun_cases decodeCtrl d <;> simp only [encode, *]
    _ = txWrite 0x08#6 d := by rw [ctrlData_reservedBits]

theorem encode_decodeRead (a : Addr) : encode (decodeRead a) = txRead a := by
  fun_cases decodeRead a
  case case10 hblock => rw [encode, blockAddr_blockIndex hblock]
  case case11 hdigest => rw [encode, digestAddr_digestIndex hdigest]
  all_goals subst_vars; rfl

theorem encode_decodeWrite (a : Addr) (d : Word) : encode (decodeWrite a d) = txWrite a d := by
  fun_cases decodeWrite a d
  case case5 hctrl => rw [hctrl, encode_decodeCtrl]
  case case10 hblock => rw [encode, blockAddr_blockIndex hblock]
  case case11 hdigest => rw [encode, digestAddr_digestIndex hdigest]
  all_goals subst_vars; rfl

theorem decodeCtrl_wellFormed (d : Word) : (decodeCtrl d).WellFormed := by
  fun_cases decodeCtrl d <;> rfl

/-- An unmapped row answers an address of its own range; the last one is reached by the addresses of no other row. -/
theorem decodeRead_wellFormed (a : Addr) : (decodeRead a).WellFormed := by
  fun_cases decodeRead a
  case case3 h | case4 h | case9 h | case12 h => exact h
  case case13 =>
    have hlast : Addr.within a 0x30 0x3F = true := by simpa only [*, Bool.false_eq_true, false_or] using a.mem_row
    exact hlast
  all_goals subst_vars; rfl

theorem decodeWrite_wellFormed (a : Addr) (d : Word) : (decodeWrite a d).WellFormed := by
  fun_cases decodeWrite a d
  case case3 h | case4 h | case9 h | case12 h => exact h
  case case5 => exact decodeCtrl_wellFormed d
  case case13 =>
    have hlast : Addr.within a 0x30 0x3F = true := by simpa only [*, Bool.false_eq_true, false_or] using a.mem_row
    exact hlast
  all_goals subst_vars; rfl

/-- Settles O4, for the three fields of the word: read rows and write rows apart. -/
theorem decodeThenEncodeGivesCanonicalWord : Obligations.DecodeThenEncodeGivesCanonicalWord := by
  intro b
  obtain ⟨⟨we, a, d⟩, rfl⟩ := Tx.bits_surjective b
  rw [Tx.bits_getLsbD_we]
  cases we with
  | false =>
    rw [decode_bits_read, bits_read_and_head]
    exact ⟨decodeRead_wellFormed a, encode_decodeRead a⟩
  | true =>
    rw [decode_bits_write]
    exact ⟨decodeWrite_wellFormed a d, encode_decodeWrite a d⟩

/-- Settles O2: the read rows do not look at the data bits, and `txRead` is the spelling with data bits 0. -/
theorem readIgnoresWdata : Obligations.ReadIgnoresWdata := by
  intro a w w'
  rw [decode_bits_read, decode_bits_read]
  exact ⟨rfl, encode_decodeRead a⟩

/-! ### Encoding and then decoding -/

/-- The decoder undoes the encoder: an address inside a row's range falls through the tests of all the other rows. -/
theorem decode_encode {i : Instr} (h : i.WellFormed) : decode (encode i) = i := by
  cases i with
  | rdUnmapped02 a | rdUnmapped04 a | rdUnmapped0B a | rdUnmapped0C a | rdUnmapped28 a | rdUnmapped30 a
  | wrUnmapped02 a d | wrUnmapped04 a d | wrUnmapped0B a d | wrUnmapped0C a d | wrUnmapped28 a d | wrUnmapped30 a d =>
    have hrange := (Addr.within_iff a _ _).mp h
    simp (disch := omega) only [encode, decode_txRead, decode_txWrite, decodeRead, decodeWrite, Addr.within_iff,
      ← BitVec.toNat_inj, BitVec.toNat_ofNat, if_neg, if_pos]
  | wrCtrlNop r | wrCtrlInit r | wrCtrlNext r | wrCtrlInitNext r => simp [encode, decodeCtrl]
  | rdBlock j | wrBlock j d | rdDigest k | wrDigest k d => simp [encode]
  | rdId | rdVersion | rdCtrl | rdStatus | rdBlocks => exact decode_txRead _
  | wrId d | wrVersion d | wrStatus d | wrBlocks d => exact decode_txWrite _ d

/-- Settles O3. -/
theorem encodeThenDecodeGivesInstruction : Obligations.EncodeThenDecodeGivesInstruction :=
  fun _ h => decode_encode h

/-- Settles O6: each word is evaluated. -/
theorem writtenOutWordsDecode : Obligations.WrittenOutWordsDecode := by
  unfold Obligations.WrittenOutWordsDecode
  decide

/-! ### The opcode table -/

open Laws.EncodesItsRow in
/-- The word of a well-formed transaction is selected by a row of its own mnemonic. -/
theorem exists_row_selects_encode : ∀ i : Instr, Statement i
  | .rdId => rdId
  | .wrId d => wrId d
  | .rdVersion => rdVersion
  | .wrVersion d => wrVersion d
  | .rdUnmapped02 a => rdUnmapped02 a
  | .wrUnmapped02 a d => wrUnmapped02 a d
  | .rdUnmapped04 a => rdUnmapped04 a
  | .wrUnmapped04 a d => wrUnmapped04 a d
  | .rdUnmapped0B a => rdUnmapped0B a
  | .wrUnmapped0B a d => wrUnmapped0B a d
  | .rdUnmapped0C a => rdUnmapped0C a
  | .wrUnmapped0C a d => wrUnmapped0C a d
  | .rdUnmapped28 a => rdUnmapped28 a
  | .wrUnmapped28 a d => wrUnmapped28 a d
  | .rdUnmapped30 a => rdUnmapped30 a
  | .wrUnmapped30 a d => wrUnmapped30 a d
  | .rdCtrl => rdCtrl
  | .wrCtrlNop r => wrCtrlNop r
  | .wrCtrlInit r => wrCtrlInit r
  | .wrCtrlNext r => wrCtrlNext r
  | .wrCtrlInitNext r => wrCtrlInitNext r
  | .rdStatus => rdStatus
  | .wrStatus d => wrStatus d
  | .rdBlocks => rdBlocks
  | .wrBlocks d => wrBlocks d
  | .rdBlock j => rdBlock j
  | .wrBlock j d => wrBlock j d
  | .rdDigest k => rdDigest k
  | .wrDigest k d => wrDigest k d

/-- A row that looks at data bits is a write row (R74): only the CTRL commands do. -/
theorem row_mask_or_write :
    ∀ r ∈ opcodeTable, 0x7F00000000#39 &&& r.mask = r.mask ∨ r.pattern.getLsbD 38 = true := by
  decide

/-- A row that selects a read's canonical spelling selects the read with any data bits. -/
theorem selects_of_selects_head {r : Row} {b : TxWord} (hr : r ∈ opcodeTable) (hread : b.getLsbD 38 = false)
    (h : r.selects (b &&& 0x7F00000000#39) = true) : r.selects b = true := by
  rw [Row.selects, beq_iff_eq, BitVec.and_assoc] at h
  obtain hmask | hwrite := row_mask_or_write r hr
  · rwa [Row.selects, beq_iff_eq, ← hmask]
  · rw [← h, BitVec.getLsbD_and, hread, Bool.false_and] at hwrite
    cases hwrite

/-- Some row of the decoded instruction's mnemonic selects the word. -/
theorem exists_row_selects (b : TxWord) :
    ∃ r ∈ opcodeTable, r.mnemonic = (decode b).mnemonic ∧ r.selects b = true := by
  obtain ⟨hwf, hencode⟩ := decodeThenEncodeGivesCanonicalWord b
  obtain ⟨r, hr, hname, hsel⟩ := exists_row_selects_encode (decode b) hwf
  refine ⟨r, hr, hname, ?_⟩
  rw [hencode] at hsel
  cases hwe : b.getLsbD 38 with
  | true => rwa [if_pos hwe] at hsel
  | false =>
    rw [hwe, if_neg Bool.false_ne_true] at hsel
    exact selects_of_selects_head hr hwe hsel

/-- Two rows whose patterns agree where both masks look are one row. -/
theorem row_eq_of_patterns_agree :
    ∀ r ∈ opcodeTable, ∀ r' ∈ opcodeTable, r.pattern &&& r'.mask = r'.pattern &&& r.mask → r = r' := by
  decide

/-- No two rows select the same word. -/
theorem row_eq_of_selects {r r' : Row} {b : TxWord} (hr : r ∈ opcodeTable) (hr' : r' ∈ opcodeTable)
    (h : r.selects b = true) (h' : r'.selects b = true) : r = r' := by
  rw [Row.selects, beq_iff_eq] at h h'
  refine row_eq_of_patterns_agree r hr r' hr' ?_
  rw [← h, ← h', BitVec.and_assoc, BitVec.and_assoc, BitVec.and_comm r.mask]

theorem opcodeTable_nodup : opcodeTable.Nodup := by decide

/-- The rows that select a word are the one row that does. -/
theorem filter_selects {r : Row} {b : TxWord} (hr : r ∈ opcodeTable) (h : r.selects b = true) :
    opcodeTable.filter (fun r' => r'.selects b) = [r] := by
  have honly : ∀ r' ∈ opcodeTable, r'.selects b = (r' == r) := fun r' hr' => by
    rw [Bool.eq_iff_iff, beq_iff_eq]
    exact ⟨fun h' => row_eq_of_selects hr' hr h' h, fun he => he ▸ h⟩
  calc opcodeTable.filter (fun r' => r'.selects b) = opcodeTable.filter (· == r) := List.filter_congr honly
    _ = List.replicate (opcodeTable.count r) r := List.filter_beq r
    _ = [r] := by rw [List.count_eq_one_of_mem opcodeTable_nodup hr, List.replicate_one]

/-- Settles O5: some row of the decoded mnemonic selects the word, and no other row does. -/
theorem everyWordSelectsExactlyOneRow : Obligations.EveryWordSelectsExactlyOneRow := by
  intro b
  obtain ⟨r, hr, hname, hsel⟩ := exists_row_selects b
  rw [filter_selects hr hsel, List.map_singleton, hname]

end Sys2Proof
end

