-- ==== Sys2Proof/Proofs/RegisterReads.lean ====
section
/-! A read transaction answers the register map's word, in a POLL and on the ports too (20_memory.md R56, 30_encoding.md
R79, R80). -/

namespace Sys2Proof.Machine

/-! ### The register map by range (20_memory.md R56) -/

theorem State.readReg_block (s : State) {a : Addr} (h : Addr.within a 0x10 0x1F = true) :
    s.readReg a = s.blkWord (blockIndex a) := by
  rw [Addr.within_iff] at h
  simp (disch := omega) only [State.readReg, Addr.within_iff, ← BitVec.toNat_inj, BitVec.toNat_ofNat, if_neg, if_pos]

theorem State.readReg_digest (s : State) {a : Addr} (h : Addr.within a 0x20 0x27 = true) :
    s.readReg a = s.digestWord (digestIndex a) := by
  rw [Addr.within_iff] at h
  simp (disch := omega) only [State.readReg, Addr.within_iff, ← BitVec.toNat_inj, BitVec.toNat_ofNat, if_neg, if_pos]

theorem State.readReg_unmapped (s : State) {a : Addr} (h : isUnmapped a = true) : s.readReg a = 0 := by
  simp only [isUnmapped, Bool.or_eq_true, Addr.within_iff] at h
  simp (disch := omega) only [State.readReg, Addr.within_iff, ← BitVec.toNat_inj, BitVec.toNat_ofNat, if_neg]

/-! ### Read transactions -/

/-- A read row answers what the register map names at its address (R56, R169). -/
theorem exec_decodeRead (a : Addr) (s : State) : exec (decodeRead a) s = .next (s.answer (s.readReg a)) := by
  fun_cases decodeRead a
  case case3 h | case4 h | case9 h | case12 h =>
    rw [s.readReg_unmapped (by simp only [isUnmapped, Bool.or_eq_true, Addr.within_iff] at h ⊢; omega)]
    rfl
  case case10 h => rw [s.readReg_block h]; rfl
  case case11 h => rw [s.readReg_digest h]; rfl
  case case13 => simp only [exec, execRdUnmapped30, State.readReg, *, Bool.false_eq_true, if_false]
  all_goals subst_vars; rfl

/-- With a POLL next in its program, HOST makes one read and ends the loop when the masked word is the value (R79). -/
theorem hostTurn_of_poll {s : State} {a : Addr} {mask value : Word} {rest : List HostOp}
    (h : s.host = .poll a mask value :: rest) :
    hostTurn s = .next { s with
      rdata := some (s.readReg a)
      host := if s.readReg a &&& mask = value then rest else s.host } := by
  rw [hostTurn, h]
  simp only [pollTx, decode_txRead, exec_decodeRead, pollNext, State.answer_rdata]
  split_ifs
  · rfl
  · rw [← h]; rfl

/-- Settles O45: the interleaving gives the turn to HOST, which reads once; the step's beginning changes nothing the
register map shows. -/
theorem pollRepeatsUntilMatch : Obligations.PollRepeatsUntilMatch := by
  intro s a mask value rest q hhost hsched
  have hnext : State.host { s with sched := q, doneQ := false } = .poll a mask value :: rest := hhost
  rw [step_of_sched hsched]
  exact hostTurn_of_poll hnext

/-- Settles O50: the port and the read it presents both show the register map's word; the other ports are flags. -/
theorem portsShowTransactionAndFlags : Obligations.PortsShowTransactionAndFlags := by
  intro s p
  refine ⟨fun hcs hwe => ?_, fun h => ?_, ?_, rfl, rfl⟩
  · rw [Pins.tx, hwe, decode_bits_read, exec_decodeRead]
    simp [State.ports, hcs, hwe, State.answer]
  · obtain hcs | hwe := h
    · simp [State.ports, hcs]
    · simp [State.ports, hwe]
  · simp [State.ports, State.ready]

end Sys2Proof.Machine
end

