-- ==== Sys2Proof/Proofs/Datapath.lean ====
section
/-! The word functions of the datapath bit by bit, and the tables K and IV against their definition by primes
(40_datapath_functions.md R100 to R111). -/

namespace Sys2Proof.Machine

/-! ### Rotation and shift (R100, R101) -/

/-- In the range R100 gives it, `rotr` is the library's rotation. -/
theorem rotr_eq_rotateRight (x : Word) {n : Nat} (hn : n < 32) : rotr x n = x.rotateRight n := by
  rw [rotr, BitVec.rotateRight, BitVec.rotateRightAux, Nat.mod_eq_of_lt hn]

theorem rotr_getLsbD (x : Word) {n i : Nat} (hn : n < 32) (hi : i < 32) :
    (rotr x n).getLsbD i = x.getLsbD ((i + n) % 32) := by
  rw [rotr_eq_rotateRight x hn, BitVec.getLsbD_rotateRight, Nat.mod_eq_of_lt hn]
  by_cases h : i < 32 - n
  · rw [show (i + n) % 32 = n + i by omega]
    simp [h]
  · rw [show (i + n) % 32 = i - (32 - n) by omega]
    simp [h, hi]

@[simp] theorem shr_getLsbD (x : Word) (n i : Nat) : (shr x n).getLsbD i = x.getLsbD (i + n) := by
  rw [shr, BitVec.getLsbD_ushiftRight, Nat.add_comm]

/-- Rotation takes bit 0, the only one of the word 1, to bit 32 − n. -/
theorem rotr_one {n : Nat} (hpos : 1 ≤ n) (hn : n < 32) : rotr 1 n = BitVec.ofNat 32 (2 ^ (32 - n)) := by
  refine BitVec.eq_of_getLsbD_eq fun i hi => ?_
  have hbit : (i + n) % 32 = 0 ↔ 32 - n = i := by omega
  rw [rotr_getLsbD 1 hn hi, BitVec.getLsbD_ofNat, Nat.testBit_two_pow]
  simp [hbit, hi]

/-- Settles O29: the bit law of the rotation, and its corner case by the bits. -/
theorem rotrMovesEveryBit : Obligations.RotrMovesEveryBit := fun x _ hpos hle =>
  have hn := Nat.lt_succ_of_le hle
  ⟨fun _ hi => rotr_getLsbD x hn hi, rotr_one hpos hn⟩

theorem shr_toNat (x : Word) (n : Nat) : (shr x n).toNat = x.toNat / 2 ^ n := by
  rw [shr, BitVec.toNat_ushiftRight, Nat.shiftRight_eq_div_pow]

/-- Settles O30: the shift divides, and the library bounds what it leaves. -/
theorem shrIsFloorDivision : Obligations.ShrIsFloorDivision := fun x n hn =>
  ⟨shr_toNat x n, BitVec.toNat_ushiftRight_lt x n hn⟩

/-! ### Ch, Maj and the sigma functions (R104 to R109) -/

theorem ch_getLsbD (x y z : Word) {i : Nat} (hi : i < 32) :
    (ch x y z).getLsbD i = if x.getLsbD i then y.getLsbD i else z.getLsbD i := by
  simp only [ch, BitVec.getLsbD_xor, BitVec.getLsbD_and, BitVec.getLsbD_not, hi]
  cases x.getLsbD i <;> simp

theorem maj_getLsbD (x y z : Word) (i : Nat) : (maj x y z).getLsbD i =
    ((x.getLsbD i && y.getLsbD i) ^^ (x.getLsbD i && z.getLsbD i) ^^ (y.getLsbD i && z.getLsbD i)) := by
  simp only [maj, BitVec.getLsbD_xor, BitVec.getLsbD_and]

/-- The XOR of the three conjunctions of two bits is their majority. -/
theorem xor_ands_iff_two_le : ∀ a b c : Bool,
    ((a && b) ^^ (a && c) ^^ (b && c)) = true ↔ 2 ≤ a.toNat + b.toNat + c.toNat := by
  decide

/-- Settles O31: both functions act on each bit place alone, where they are truth tables. -/
theorem chooseAndMajorityBits : Obligations.ChooseAndMajorityBits := by
  intro x y z i hi
  refine ⟨ch_getLsbD x y z hi, ?_⟩
  rw [maj_getLsbD]
  exact xor_ands_iff_two_le _ _ _

/-- Settles O32: XOR acts bit by bit, and the bits of each rotation and shift are known. -/
theorem sigmaFunctionBits : Obligations.SigmaFunctionBits := by
  intro x i hi
  simp (disch := omega) only [sigma0, sigma1, bigSigma0, bigSigma1, BitVec.getLsbD_xor, rotr_getLsbD, shr_getLsbD,
    and_self]

/-! ### K and IV (R110, R111) -/

/-- The numbers below N that satisfy p, in order, begin the enumeration of all that do. -/
theorem getElem_filter_range (p : Nat → Prop) [DecidablePred p] (N i : Nat)
    (h : i < ((List.range N).filter p).length) : ((List.range N).filter p)[i] = Nat.nth p i := by
  induction N with
  | zero => simp at h
  | succ N ih =>
    simp only [List.range_succ, List.filter_append] at h ⊢
    by_cases hi : i < ((List.range N).filter p).length
    · rw [List.getElem_append_left hi, ih hi]
    · have hp : p N := by_contra fun hp => hi (by simpa [hp] using h)
      have hlt : i < ((List.range N).filter p).length + 1 := by simpa [hp] using h
      have hcount : i = Nat.count p N := by
        rw [Nat.count, List.countP_eq_length_filter]
        omega
      subst hcount
      rw [List.getElem_append_right (Nat.le_of_not_lt hi), Nat.nth_count hp]
      simp [hp]

/-- Below b², a number is prime exactly when trial division by the numbers below b finds it so. -/
theorem prime_iff_of_lt_mul_self {b x : Nat} (hx : x < b * b) :
    x.Prime ↔ 2 ≤ x ∧ ∀ m < b, 2 ≤ m → m ∣ x → m = x := by
  refine ⟨fun hp => ⟨hp.two_le, fun m _ h2 hd => (Nat.dvd_prime_two_le hp h2).1 hd⟩, fun ⟨h2, hdiv⟩ => ?_⟩
  refine Nat.prime_def_le_sqrt.2 ⟨h2, fun m hm hsqrt hd => ?_⟩
  have heq : m = x := hdiv m (hsqrt.trans_lt (Nat.sqrt_lt.2 hx)) hm hd
  have hlt : x.sqrt < x := Nat.sqrt_lt_self h2
  omega

/-- The first column of the round table is the primes below 312, in order: trial division by the numbers below 18 finds
them, since 312 < 18². -/
theorem roundTable_primes : roundTable.map Prod.fst = (List.range 312).filter Nat.Prime := by
  have hsieve : roundTable.map Prod.fst =
      (List.range 312).filter fun x => 2 ≤ x ∧ ∀ m < 18, 2 ≤ m → m ∣ x → m = x := by decide +kernel
  refine hsieve.trans (List.filter_congr fun x hx => decide_eq_decide.2 ?_)
  have hlt : x < 312 := List.mem_range.1 hx
  exact (prime_iff_of_lt_mul_self (by omega)).symm

theorem roundTable_fst {i : Nat} (h : i < roundTable.length) : roundTable[i].1 = Nat.nth Nat.Prime i := by
  have hmap : i < (roundTable.map Prod.fst).length := by rwa [List.length_map]
  calc roundTable[i].1
    _ = (roundTable.map Prod.fst)[i] := (List.getElem_map _).symm
    _ = ((List.range 312).filter Nat.Prime)[i]'(roundTable_primes ▸ hmap) :=
      List.getElem_of_eq roundTable_primes hmap
    _ = Nat.nth Nat.Prime i := getElem_filter_range _ _ _ _

theorem K_getElem (i : Fin 64) : K[i] = (roundTable[i.val]'i.isLt).2 := List.getElem_map _

/-- `w` is the first 32 bits of the fractional part of the e-th root of p: with the root's integer part m above it, it is
the root times 2^32, rounded down. -/
def IsRootFraction (e p : Nat) (w : Word) : Prop :=
  ∃ m ≤ p, (m * 2 ^ 32 + w.toNat) ^ e ≤ p * 2 ^ (32 * e) ∧ p * 2 ^ (32 * e) < (m * 2 ^ 32 + w.toNat + 1) ^ e

/-- A root fraction is the low 32 bits of the scaled integer root. -/
theorem IsRootFraction.exists_root {e p : Nat} {w : Word} (h : IsRootFraction e p w) :
    ∃ n : Nat, n ^ e ≤ p * 2 ^ (32 * e) ∧ p * 2 ^ (32 * e) < (n + 1) ^ e ∧ w = BitVec.ofNat 32 n := by
  obtain ⟨m, -, hle, hlt⟩ := h
  refine ⟨m * 2 ^ 32 + w.toNat, hle, hlt, BitVec.eq_of_toNat_eq ?_⟩
  rw [BitVec.toNat_ofNat]
  omega

/-- Every constant of the round table is the cube root fraction of the number beside it. -/
theorem roundTable_cube_roots : ∀ row ∈ roundTable, IsRootFraction 3 row.1 row.2 := by
  unfold IsRootFraction
  decide +kernel

/-- Every word of IV is the square root fraction of the table's number at its place. -/
theorem IV_square_roots : ∀ k : Fin 8, IsRootFraction 2 (roundTable[k.val]'(k.isLt.trans (by decide))).1 IV[k] := by
  unfold IsRootFraction
  decide +kernel

/-- Settles O33: the numbers of the round table are the primes in order, and each table holds their root fractions. -/
theorem tablesAreRootsOfPrimes : Obligations.TablesAreRootsOfPrimes := by
  refine ⟨fun i => ?_, fun k => ?_⟩
  · rw [← roundTable_fst i.isLt, K_getElem]
    exact (roundTable_cube_roots _ (List.getElem_mem _)).exists_root
  · rw [← roundTable_fst (k.isLt.trans (by decide))]
    exact (IV_square_roots k).exists_root

end Sys2Proof.Machine
end

