-- ==== Sys2Proof/Proofs/MessageScheduler.lean ====
section
/-! The recurrence of the message schedule, and what a block pass holds: how a command starts it, and that every
step keeps it while the engine stays busy (41_message_scheduler.md R120 to R122, 42_round_function.md R132, R133). -/

namespace Sys2Proof.Machine

/-! ### The schedule words (R120) -/

/-- W_t is the word that the schedule's list gains at t. -/
theorem scheduleWord_eq (m : Block) (t : Nat) :
    scheduleWord m t = if h : t < 16 then m[t] else scheduleExtend (scheduleWords m t) t := by
  rw [scheduleWord, scheduleWords, List.getD_append_right _ _ _ _ (by simp)]
  simp

@[simp] theorem scheduleWord_fin (m : Block) (j : Fin 16) : scheduleWord m j = m[j] := by
  rw [scheduleWord_eq, dif_pos j.isLt, Fin.getElem_fin]

theorem scheduleWord_of_ge (m : Block) {t : Nat} (h : 16 ≤ t) : scheduleWord m t =
    scheduleWord m (t - 16) + sigma0 (scheduleWord m (t - 15)) + scheduleWord m (t - 7) +
      sigma1 (scheduleWord m (t - 2)) := by
  rw [scheduleWord_eq, dif_neg (by omega), scheduleExtend]
  simp (disch := omega) only [scheduleWords_getD]

/-- Settles O34: the recurrence with σ0 and σ1 by their names. -/
theorem scheduleRecurrence : Obligations.ScheduleRecurrence := fun m =>
  ⟨scheduleWord_fin m, fun _ hge _ => scheduleWord_of_ge m hge⟩

/-! ### The window over the schedule (R122) -/

/-- The update moves a window that holds the schedule from W_n on one word further: WIN[15] becomes W_(n+16), which the
recurrence makes of the window's own words. -/
theorem windowNext_holds_schedule {m win : Block} {n : Nat}
    (h : ∀ j : Fin 16, n + j.val ≤ 63 → win[j] = scheduleWord m (n + j.val)) (j : Fin 16)
    (hj : n + 1 + j.val ≤ 63) : (windowNext win)[j] = scheduleWord m (n + 1 + j.val) := by
  rw [windowNext_get]
  split
  case isTrue hlt =>
    rw [Nat.add_assoc, Nat.add_comm 1]
    exact h ⟨j.val + 1, hlt⟩ (by simp only; omega)
  case isFalse hge =>
    have hlast : j.val = 15 := by omega
    have hword (k : Nat) (hk : k < 15 := by decide) : win[k] = scheduleWord m (n + k) :=
      h ⟨k, by omega⟩ (by simp only; omega)
    have hrec : scheduleWord m (n + 16) = scheduleWord m n + sigma0 (scheduleWord m (n + 1)) +
        scheduleWord m (n + 9) + sigma1 (scheduleWord m (n + 14)) := scheduleWord_of_ge m (Nat.le_add_left 16 n)
    rw [windowNew, hword 14, hword 9, hword 1, hword 0, hlast, Nat.add_assoc, hrec]
    abel

/-! ### The pass -/

/-- The pass invariant speaks of HS, T, PHASE, a..h and WIN alone. -/
theorem InPass.congr {hs : HashState} {m : Block} {s t : State} (h : InPass hs m s) (hhs : t.hs = s.hs)
    (ht : t.t = s.t) (hp : t.phase = s.phase) (hv : t.v = s.v) (hw : t.win = s.win) : InPass hs m t where
  hash := by rw [hhs, h.hash]
  count := by rw [hp, ht]; exact h.count
  last := by rw [hp, ht]; exact h.last
  vars := by rw [hv, ht, h.vars]
  window := by rw [hw, ht]; exact h.window

/-- DoNext starts a pass on BLK from HS: no round is done, and WIN holds W_0 to W_15 (R160). -/
theorem State.inPass_doNext (s : State) : InPass s.hs s.blk s.doNext where
  hash := rfl
  count _ := by simp
  last h := by simp at h
  vars := rfl
  window j _ := by simp

/-- Settles O38: in IDLE both commands are performed; INIT before NEXT makes the chaining value IV. -/
theorem acceptedNextStartsPass : Obligations.AcceptedNextStartsPass := by
  intro s t r withInit hp h
  cases withInit with
  | false =>
    have ht : (s.command State.doNext).noAnswer = t := Host.Outcome.next.inj h
    rw [State.command_idle _ _ hp] at ht
    subst ht
    exact ⟨s.inPass_doNext.congr rfl rfl rfl rfl rfl, rfl, rfl⟩
  | true =>
    have ht : (s.command fun u => u.doInit.doNext).noAnswer = t := Host.Outcome.next.inj h
    rw [State.command_idle _ _ hp] at ht
    subst ht
    exact ⟨s.doInit.inPass_doNext.congr rfl rfl rfl rfl rfl, rfl, rfl⟩

/-- ROUND keeps the pass: round T is done with K[T] and WIN[0] = W_T, and the window moves on. -/
theorem inPass_roundStep {hs : HashState} {m : Block} {s : State} (h : InPass hs m s) (hp : s.phase = .round) :
    InPass hs m (roundStep s) := by
  have hle : s.t.toNat ≤ 63 := h.count hp
  have hsucc : (roundStep s).t.toNat = s.t.toNat + 1 := counter_succ _ hle
  have hfirst : s.win[0] = scheduleWord m s.t.toNat := h.window 0 hle
  refine ⟨h.hash, fun hround => ?count, fun hfinal => ?last, ?vars, ?window⟩
  case count =>
    have hne : s.t ≠ 63 := fun he => by simp [he] at hround
    have hlt : s.t.toNat ≠ 63 := fun he => hne (BitVec.eq_of_toNat_eq he)
    omega
  case last =>
    have he : s.t = 63 := by simpa [hp] using hfinal
    rw [roundStep_t, he]
    rfl
  case vars => rw [hsucc, roundsTo, ← h.vars, ← hfirst, BitVec.ofNat_toNat, BitVec.setWidth_eq, roundStep_v]
  case window =>
    rw [hsucc, roundStep_win]
    exact windowNext_holds_schedule h.window

/-! ### Steps of every kind (R132) -/

theorem inPass_engineStep {hs : HashState} {m : Block} {s : State} (h : InPass hs m s)
    (hb : (engineStep s).phase ≠ .idle) : InPass hs m (engineStep s) := by
  cases hp : s.phase with
  | idle => rwa [engineStep_idle hp]
  | round => rw [engineStep_round hp]; exact inPass_roundStep h hp
  | final => rw [engineStep_final hp] at hb; exact absurd rfl hb

theorem exec_keeps_pass {hs : HashState} {m : Block} {i : Instr} {s t : State} (h : InPass hs m s)
    (hb : s.phase ≠ .idle) (ht : exec i s = .next t) : InPass hs m t := by
  rw [exec_busy_frame ht hb]
  exact h.congr rfl rfl rfl rfl rfl

theorem hostTurn_keeps_pass {hs : HashState} {m : Block} {s t : State} (h : InPass hs m s) (hb : s.phase ≠ .idle)
    (ht : hostTurn s = .next t) : InPass hs m t := by
  rw [hostTurn_busy_frame ht hb]
  exact h.congr rfl rfl rfl rfl rfl

/-- In a clock cycle the transaction keeps the phase of a busy engine, so the engine step after it is the one this phase
enables; a reset would end the pass. -/
theorem clockTurn_keeps_pass {hs : HashState} {m : Block} {p : Pins} {s t : State} (h : InPass hs m s)
    (hb : s.phase ≠ .idle) (ht : clockTurn p s = .next t) (hb' : t.phase ≠ .idle) : InPass hs m t := by
  obtain rfl | ⟨u, rfl | ⟨i, hu⟩, rfl⟩ := clockTurn_cases ht
  · exact absurd rfl hb'
  · exact inPass_engineStep h hb'
  · have hphase : u.phase = s.phase := by rw [exec_busy_frame hu hb]
    rw [← hphase] at hb' ⊢
    exact inPass_engineStep (exec_keeps_pass h hb hu) hb'

theorem takeTurn_keeps_pass {hs : HashState} {m : Block} {u : Turn} {s t : State} (h : InPass hs m s)
    (hb : s.phase ≠ .idle) (ht : takeTurn u s = .next t) (hb' : t.phase ≠ .idle) : InPass hs m t := by
  cases u with
  | host => exact hostTurn_keeps_pass h hb ht
  | engine => cases ht; exact inPass_engineStep h hb'
  | reset => cases ht; exact absurd rfl hb'
  | clock p => exact clockTurn_keeps_pass h hb ht hb'

/-- Settles O39: the step's beginning touches nothing of the pass, and each kind of turn keeps it. -/
theorem everyStepKeepsPass : Obligations.EveryStepKeepsPass := by
  intro hs m s s' h hb hstep hb'
  have hbegin : InPass hs m s.beginStep := h.congr rfl rfl rfl rfl rfl
  exact takeTurn_keeps_pass hbegin hb hstep hb'

end Sys2Proof.Machine
end

