-- ==== Sys2Proof/Proofs/Noninterference.lean ====
section
/-! What a..h and WIN hold outside a pass has no effect on anything that can be observed (10_state.md R21, R29,
41_message_scheduler.md R123). -/

namespace Sys2Proof.Machine

/-! ### States that no observation tells apart -/

theorem SameObservation.refl (s : State) : SameObservation s s :=
  ⟨rfl, rfl, rfl, rfl, rfl, rfl, rfl, rfl, rfl, rfl, rfl, rfl, fun _ => rfl, fun _ => rfl⟩

/-- While busy, states that no observation tells apart are one state. -/
theorem SameObservation.eq_of_busy {s s' : State} (h : SameObservation s s') (hb : s.phase ≠ .idle) : s = s' := by
  cases s
  cases s'
  rw [State.mk.injEq]
  exact ⟨h.hs, h.vars hb, h.t, h.phase, h.valid, h.err, h.blk, h.win hb, h.blocks, h.events, h.doneQ, h.rdata, h.host,
    h.sched⟩

section
variable {s s' : State} (h : SameObservation s s')
include h

/-- Every register reads the same: the map names neither a..h nor WIN (20_memory.md R56). -/
theorem SameObservation.readReg (a : Addr) : s.readReg a = s'.readReg a := by
  simp only [State.readReg, State.status, State.ready, State.blkWord, State.digestWord, h.hs, h.phase, h.valid, h.err,
    h.blk, h.blocks]

theorem SameObservation.nextTurn : nextTurn s = nextTurn s' := by
  rw [Machine.nextTurn, Machine.nextTurn, h.sched, h.phase]

/-! ### The operations on the state -/

theorem SameObservation.answer {w w' : Word} (hw : w = w') : SameObservation (s.answer w) (s'.answer w') :=
  { h with rdata := congrArg some hw }

theorem SameObservation.noAnswer : SameObservation s.noAnswer s'.noAnswer :=
  { h with rdata := rfl }

theorem SameObservation.setBlkWord (j : Fin 16) (w : Word) : SameObservation (s.setBlkWord j w) (s'.setBlkWord j w) :=
  { h with blk := by simp [h.blk] }

theorem SameObservation.withHost (prog : List HostOp) :
    SameObservation { s with host := prog } { s' with host := prog } :=
  { h with host := rfl }

theorem SameObservation.beginStep : SameObservation s.beginStep s'.beginStep :=
  { h with doneQ := rfl, sched := congrArg List.tail h.sched }

theorem SameObservation.reject : SameObservation s.reject s'.reject :=
  { h with err := rfl }

theorem SameObservation.doInit : SameObservation s.doInit s'.doInit :=
  { h with hs := rfl, blocks := rfl, valid := rfl, err := rfl }

/-- DoNext overwrites what was left in a..h and WIN, from HS and BLK (R160). -/
theorem SameObservation.doNext : SameObservation s.doNext s'.doNext :=
  { h with
    t := rfl, phase := rfl, valid := rfl
    vars := fun _ => congrArg Vars.ofHash h.hs
    win := fun _ => h.blk }

theorem SameObservation.applyReset : SameObservation s.applyReset s'.applyReset :=
  { SameObservation.refl State.reset with events := h.events, rdata := h.rdata, host := h.host, sched := h.sched }

/-- Whether a command is performed depends on PHASE alone. -/
theorem SameObservation.command {perform : State → State} (hperform : SameObservation (perform s) (perform s')) :
    SameObservation (s.command perform) (s'.command perform) := by
  by_cases hp : s.phase = .idle
  · rwa [State.command_idle _ _ hp, State.command_idle _ _ (h.phase ▸ hp)]
  · rw [State.command_busy _ _ hp, State.command_busy _ _ (h.phase ▸ hp)]
    exact h.reject

end

/-! ### Transactions and turns -/

/-- Both answer a next state, and no observation tells the two apart. -/
def SameOutcome (r r' : Result) : Prop := ∃ t t', r = .next t ∧ r' = .next t' ∧ SameObservation t t'

theorem SameOutcome.next {t t' : State} (h : SameObservation t t') : SameOutcome (.next t) (.next t') :=
  ⟨t, t', rfl, rfl, h⟩

section
variable {s s' : State} (h : SameObservation s s')
include h

theorem exec_sameOutcome (i : Instr) : SameOutcome (exec i s) (exec i s') := by
  cases i with
  | rdId | rdVersion | rdUnmapped02 | rdUnmapped04 | rdUnmapped0B | rdUnmapped0C | rdUnmapped28 | rdUnmapped30
  | rdCtrl => exact .next (h.answer rfl)
  | rdStatus => exact .next (h.answer (h.readReg 0x09#6))
  | rdBlocks => exact .next (h.answer h.blocks)
  | rdBlock j => exact .next (h.answer (congrArg (·[j]) h.blk))
  | rdDigest k => exact .next (h.answer (congrArg (·[k]) h.hs))
  | wrBlock j d => exact .next (h.setBlkWord j d).noAnswer
  | wrCtrlInit => exact .next (h.command h.doInit).noAnswer
  | wrCtrlNext => exact .next (h.command h.doNext).noAnswer
  | wrCtrlInitNext => exact .next (h.command h.doInit.doNext).noAnswer
  | wrId | wrVersion | wrUnmapped02 | wrUnmapped04 | wrUnmapped0B | wrUnmapped0C | wrUnmapped28 | wrUnmapped30
  | wrCtrlNop | wrStatus | wrBlocks | wrDigest => exact .next h.noAnswer

theorem hostTurn_sameOutcome : SameOutcome (hostTurn s) (hostTurn s') := by
  have hhost' := h.host.symm
  cases hhost : s.host with
  | nil =>
    rw [hostTurn, hostTurn, hhost, hhost'.trans hhost]
    exact .next h
  | cons op rest =>
    rw [hhost] at hhost'
    cases op with
    | tx b =>
      rw [hostTurn_of_tx hhost, hostTurn_of_tx hhost']
      exact exec_sameOutcome (h.withHost rest) _
    | poll a mask value =>
      rw [hostTurn_of_poll hhost, hostTurn_of_poll hhost', h.readReg a, h.host]
      exact .next ((h.answer rfl).withHost _)

theorem busCycle_sameOutcome (p : Pins) : SameOutcome (busCycle p s) (busCycle p s') := by
  unfold busCycle
  split
  · exact exec_sameOutcome h _
  · exact .next h

/-- A cycle that begins in IDLE enables no engine step, so it is its transaction, or the reset. -/
theorem clockTurn_idle_sameOutcome (hp : s.phase = .idle) (p : Pins) :
    SameOutcome (clockTurn p s) (clockTurn p s') := by
  obtain ⟨u, u', hu, hu', hobs⟩ := busCycle_sameOutcome h p
  unfold clockTurn
  split
  · exact .next h.applyReset
  · rw [hu, hu', ← h.phase, hp]
    exact .next hobs

theorem takeTurn_idle_sameOutcome (hp : s.phase = .idle) (u : Turn) :
    SameOutcome (takeTurn u s) (takeTurn u s') := by
  cases u with
  | host => exact hostTurn_sameOutcome h
  | engine =>
    rw [takeTurn, takeTurn, engineTurn, engineTurn, engineStep_idle hp, engineStep_idle (h.phase ▸ hp)]
    exact .next h
  | reset => exact .next h.applyReset
  | clock p => exact clockTurn_idle_sameOutcome h hp p

end

/-- Settles O51: while busy the two states are one; in IDLE no turn reads a..h or WIN, and one that starts a pass
overwrites them. -/
theorem residueIsNeverObserved : Obligations.ResidueIsNeverObserved := by
  intro s s' t t' h ht ht'
  by_cases hp : s.phase = .idle
  · obtain ⟨u, u', hu, hu', hobs⟩ := takeTurn_idle_sameOutcome h.beginStep hp (nextTurn s)
    have htu : t = u := Host.Outcome.next.inj (ht.symm.trans hu)
    rw [h.nextTurn] at hu'
    have htu' : t' = u' := Host.Outcome.next.inj (ht'.symm.trans hu')
    rwa [htu, htu']
  · obtain rfl := h.eq_of_busy hp
    obtain rfl := Host.Outcome.next.inj (ht.symm.trans ht')
    exact .refl t

end Sys2Proof.Machine
end

