-- ==== Sys2Proof/Proofs/RoundFunction.lean ====
section
/-! The ROUND step: one round of the working variables, the window update, and the end of the rounds after round 63
(42_round_function.md R130, 41_message_scheduler.md R121). -/

namespace Sys2Proof.Machine

/-- While the counter is at most 63 the round constant is K[T] (40_datapath_functions.md R112). -/
theorem roundConstant_of_lt {t : BitVec 7} (ht : t.toNat < 64) : roundConstant t = K[t.toNat] := by
  rw [roundConstant, getElem?_pos K t.toNat ht, Option.getD_some]

/-- The window update moves each word but the first down by one place (41_message_scheduler.md R121). -/
theorem windowNext_get_shifted (w : Block) (j : Fin 15) : (windowNext w)[j.val] = w[j.val + 1] :=
  (windowNext_get w j.castSucc).trans (dif_pos (Nat.succ_lt_succ j.isLt))

/-- The window update puts the new schedule word last (41_message_scheduler.md R121). -/
theorem windowNext_get_last (w : Block) : (windowNext w)[15] = windowNew w :=
  windowNext_get w (Fin.last 15)

/-- ROUND in its own phase, with K[T] and the phase after it (42_round_function.md R130). -/
theorem roundStep_of_round {s : State} (hk : s.t.toNat < 64) (hp : s.phase = .round) :
    roundStep s = { s with
      v := roundVars s.v K[s.t.toNat] s.win[0]
      win := windowNext s.win
      t := s.t + 1
      phase := if s.t = 63 then .final else .round } := by
  rw [roundStep, roundConstant_of_lt hk, hp]

/-- Settles O35: the turn is ROUND with K[T]; t1 and t2 are the round's own, and the window is read word by word. -/
theorem roundStepComputesRound : Obligations.RoundStepComputesRound := by
  intro s hk hp
  refine ⟨roundStep s, roundT1 s.v K[s.t.toNat] s.win[0], roundT2 s.v, ?turn, rfl, rfl, ?shift, ?last, ?frame⟩
  case turn => rw [engineTurn, engineStep_round hp]
  case shift => exact windowNext_get_shifted s.win
  case last => exact windowNext_get_last s.win
  case frame => exact roundStep_of_round hk hp

end Sys2Proof.Machine
end

