-- ==== Sys2Proof/Proofs/BlockFeedback.lean ====
section
/-! A block pass from its command to its FINAL step: how far it has come under any interleaving of HOST and ENGINE, what
FINAL leaves, and how passes chain (43_block_feedback.md R140 to R143, 20_memory.md R53, R61). -/

namespace Sys2Proof.Machine

/-! ### The FINAL step (R140) -/

/-- The feedback addition word by word, with the working variables by their names (10_state.md R21). -/
theorem feedback_eq (hs : HashState) (v : Vars) : feedback hs v =
    #v[hs[0] + v.a, hs[1] + v.b, hs[2] + v.c, hs[3] + v.d, hs[4] + v.e, hs[5] + v.f, hs[6] + v.g, hs[7] + v.h] := by
  refine Vector.ext fun k hk => (feedback_get hs v ⟨k, hk⟩).trans ?_
  interval_cases k <;> rfl

/-- Settles O36: in FINAL the engine's turn is `finalStep`, and its feedback is read word by word. -/
theorem finalStepFeedsBack : Obligations.FinalStepFeedsBack := by
  intro s hp
  rw [engineTurn, engineStep_final hp, finalStep, feedback_eq]

/-! ### A pass between its command and its end -/

/-- n rounds of a pass are done in `s`. The pass began in `p`: on the block in `p.blk`, from the chaining value `p.hs`,
with the count and the events of `p` (R141). -/
structure PassAfter (p : State) (n : Nat) (s : State) : Prop where
  pass : InPass p.hs p.blk s
  counter : s.t.toNat = n
  phase : s.phase = if n = 64 then .final else .round
  blocks : s.blocks = p.blocks
  events : s.events = p.events

/-- The pass that began in `p` has just ended in `t` (R140, R141). -/
structure PassDone (p t : State) : Prop where
  hash : t.hs = compress p.hs p.blk
  phase : t.phase = .idle
  counter : t.t = 0
  valid : t.valid = true
  blocks : t.blocks = p.blocks + 1
  events : t.events = p.events ++ [⟨p.blocks⟩]

theorem State.passAfter_doNext (s : State) : PassAfter s 0 s.doNext := ⟨s.inPass_doNext, rfl, rfl, rfl, rfl⟩

section
variable {p s : State} {n : Nat} (h : PassAfter p n s)
include h

/-- The progress of a pass does not depend on what the host may change meanwhile: BLK, ERR, its answer, its program and
the interleaving; nor on VALID and DONE_Q. -/
theorem PassAfter.congr {t : State} (ht : t = { s with
    valid := t.valid, err := t.err, blk := t.blk, doneQ := t.doneQ
    rdata := t.rdata, host := t.host, sched := t.sched }) : PassAfter p n t := by
  rw [ht]
  exact ⟨h.pass.congr rfl rfl rfl rfl rfl, h.counter, h.phase, h.blocks, h.events⟩

theorem PassAfter.busy : s.phase ≠ .idle := by
  rw [h.phase]
  split <;> simp

theorem PassAfter.engineStep_succ (hn : n < 64) : PassAfter p (n + 1) (engineStep s) := by
  have hp : s.phase = .round := by rw [h.phase, if_neg hn.ne]
  have hlast : s.t = 63 ↔ n + 1 = 64 := by
    rw [← BitVec.toNat_inj, h.counter]
    simp
  rw [engineStep_round hp]
  refine ⟨inPass_roundStep h.pass hp, ?counter, ?phase, h.blocks, h.events⟩
  case counter => rw [roundStep_t, counter_succ _ (h.pass.count hp), h.counter]
  case phase => simp only [roundStep_phase, hlast, hp]

theorem PassAfter.iterate_engineStep_add {k : Nat} (hk : n + k ≤ 64) :
    PassAfter p (n + k) (engineStep^[k] s) := by
  induction k with
  | zero => exact h
  | succ k ih =>
    rw [Function.iterate_succ_apply']
    exact (ih (by omega)).engineStep_succ (by omega)

theorem PassAfter.hostTurn_same {t : State} (ht : hostTurn s = .next t) : PassAfter p n t :=
  h.congr (by rw [hostTurn_busy_frame ht h.busy])

end

/-- After round 63 a..h are Rounds(H, M), and the engine's next step is FINAL. -/
theorem PassAfter.engineStep_done {p s : State} (h : PassAfter p 64 s) : PassDone p (engineStep s) := by
  rw [engineStep_final h.phase]
  refine ⟨?hash, rfl, rfl, rfl, ?blocks, ?events⟩
  case hash => rw [finalStep_hs, h.pass.hash, h.pass.vars, h.counter, compress, rounds]
  case blocks => rw [finalStep_blocks, h.blocks]
  case events => rw [finalStep_events, h.blocks, h.events]

/-! ### Turns of HOST and ENGINE (20_memory.md R53) -/

/-- No transaction is refused (44_host_transactions.md R150). -/
theorem exec_completes (i : Instr) (s : State) : ∃ t, exec i s = .next t := by
  cases i <;> exact ⟨_, rfl⟩

theorem hostTurn_completes (s : State) : ∃ t, hostTurn s = .next t := by
  cases hh : s.host with
  | nil => exact ⟨s, by rw [hostTurn, hh]⟩
  | cons op rest =>
    cases op with
    | tx b => rw [hostTurn_of_tx hh]; exact exec_completes _ _
    | poll a mask value => exact ⟨_, hostTurn_of_poll hh⟩

/-- During a pass a step of HOST does no round, and a step of ENGINE one. -/
theorem PassAfter.step_agent {p s : State} {n : Nat} {u : Turn} {q : List Turn} (h : PassAfter p n s)
    (hq : s.sched = u :: q) (hu : u.isAgent) (hn : n + [u].count .engine ≤ 64) :
    ∃ t, step s = .next t ∧ t.sched = q ∧ PassAfter p (n + [u].count .engine) t := by
  have hbegin : PassAfter p n { s with sched := q, doneQ := false } := h.congr rfl
  rw [step_of_sched hq]
  obtain rfl | rfl := hu
  · obtain ⟨t, ht⟩ := hostTurn_completes { s with sched := q, doneQ := false }
    exact ⟨t, ht, by rw [hostTurn_busy_frame ht h.busy], hbegin.hostTurn_same ht⟩
  · obtain ⟨-, -, -, -, hsched⟩ := engineStepAt_frame s.phase { s with sched := q, doneQ := false }
    exact ⟨_, rfl, hsched, hbegin.engineStep_succ hn⟩

/-- Any interleaving moves a pass on by as many rounds as it has turns of ENGINE (R61). -/
theorem PassAfter.run_agents {p : State} (turns : List Turn) {q : List Turn} {s : State} {n : Nat} (h : PassAfter p n s)
    (hq : s.sched = turns ++ q) (hagent : ∀ u ∈ turns, u.isAgent) (hn : n + turns.count .engine ≤ 64) :
    ∃ t, run turns.length s = .next t ∧ t.sched = q ∧ PassAfter p (n + turns.count .engine) t := by
  induction turns generalizing s n with
  | nil => exact ⟨s, rfl, hq, h⟩
  | cons u us ih =>
    rw [List.forall_mem_cons] at hagent
    obtain ⟨hu, hus⟩ := hagent
    have hsplit : (u :: us).count .engine = [u].count .engine + us.count .engine := List.count_append (l₁ := [u])
    rw [hsplit, ← Nat.add_assoc] at hn ⊢
    obtain ⟨v, hstep, hv, hpass⟩ := h.step_agent hq hu (by omega)
    rw [List.length_cons, run_succ hstep]
    exact ih hpass hv hus hn

/-! ### The command that starts a pass (44_host_transactions.md R156, R157) -/

/-- The state whose HS, BLOCKS and EVENTS the pass begins with: INIT comes before NEXT. -/
def State.passStart (s : State) (withInit : Bool) : State := if withInit then s.doInit else s

@[simp] theorem State.passStart_hs (s : State) (withInit : Bool) :
    (s.passStart withInit).hs = if withInit then IV else s.hs := by
  rw [passStart, apply_ite State.hs, doInit_hs]

@[simp] theorem State.passStart_blk (s : State) (withInit : Bool) : (s.passStart withInit).blk = s.blk := by
  rw [passStart, apply_ite State.blk, doInit_blk, ite_self]

@[simp] theorem State.passStart_blocks (s : State) (withInit : Bool) :
    (s.passStart withInit).blocks = if withInit then 0 else s.blocks := by
  rw [passStart, apply_ite State.blocks, doInit_blocks]

@[simp] theorem State.passStart_events (s : State) (withInit : Bool) : (s.passStart withInit).events = s.events := by
  rw [passStart, apply_ite State.events, doInit_events, ite_self]

theorem exec_startInstr_idle {s : State} (withInit : Bool) (r : BitVec 30) (hp : s.phase = .idle) :
    exec (startInstr withInit r) s = .next (s.passStart withInit).doNext.noAnswer := by
  cases withInit <;> exact congrArg (fun u : State => Host.Outcome.next u.noAnswer) (s.command_idle _ hp)

theorem startInstr_wellFormed (withInit : Bool) (r : BitVec 30) : (startInstr withInit r).WellFormed := by
  cases withInit <;> rfl

/-- The host's turn with a start command next, in IDLE: the pass has begun, with no round done. -/
theorem step_startInstr {s : State} {r : BitVec 30} {withInit : Bool} {rest : List HostOp} {q : List Turn}
    (hp : s.phase = .idle) (hhost : s.host = .tx (encode (startInstr withInit r)) :: rest)
    (hq : s.sched = .host :: q) : ∃ t, step s = .next t ∧ t.sched = q ∧ PassAfter (s.passStart withInit) 0 t := by
  have hstep := hostStepRunsDecodedTransaction s _ rest q hhost hq
  rw [decode_encode (startInstr_wellFormed withInit r)] at hstep
  refine ⟨_, hstep.trans (exec_startInstr_idle withInit r hp), ?sched, ?pass⟩
  case sched => cases withInit <;> rfl
  case pass => exact (s.passStart withInit).passAfter_doNext.congr (by cases withInit <;> rfl)

/-- Settles O40: the command begins the pass, the 64 turns of ENGINE do its rounds whatever HOST does between them, and
the last turn is FINAL. -/
theorem passComputesCompress : Obligations.PassComputesCompress := by
  intro s r withInit rest turns hp hhost hsched hagent hcount
  obtain ⟨s₁, hstart, hq₁, hpass₁⟩ := step_startInstr hp hhost hsched
  obtain ⟨s₂, hrun, hq₂, hpass₂⟩ := hpass₁.run_agents turns hq₁ hagent (by omega)
  rw [hcount] at hpass₂
  have hfinal : PassAfter (s.passStart withInit) 64 { s₂ with sched := [], doneQ := false } := hpass₂.congr rfl
  have hdone := hfinal.engineStep_done
  refine ⟨_, ?_, ?_, hdone.phase, hdone.counter, hdone.valid, ?_, ?_⟩
  · rw [run_succ hstart, run_add hrun]
    exact run_one (step_of_sched hq₂)
  · rw [hdone.hash, State.passStart_hs, State.passStart_blk]
  · rw [hdone.blocks, State.passStart_blocks]
  · rw [hdone.events, State.passStart_events, State.passStart_blocks]

/-! ### Chained passes (R142, R143) -/

/-- A whole pass taken by the engine alone: 64 rounds and FINAL. -/
theorem passDone_passOn (s : State) (m : Block) : PassDone { s with blk := m } (passOn s m) := by
  rw [passOn, Function.iterate_succ_apply']
  exact ((State.passAfter_doNext _).iterate_engineStep_add (k := 64) (Nat.le_refl 64)).engineStep_done

/-- Settles O42: by induction on the blocks from the last one; each pass starts from the HS and the count that the
passes before it left. -/
theorem chainedPassesFoldCompress : Obligations.ChainedPassesFoldCompress := by
  intro ms s hp
  induction ms using List.reverseRecOn with
  | nil => simp [hp]
  | append_singleton ms m ih =>
    obtain ⟨hhash, -, hblocks, hevents⟩ := ih
    have hdone := passDone_passOn (ms.foldl passOn s) m
    simp only [List.foldl_append, List.foldl_cons, List.foldl_nil, List.length_append, List.length_singleton]
    refine ⟨?hash, hdone.phase, ?blocks, ?events⟩
    case hash => rw [hdone.hash, hhash]
    case blocks => rw [hdone.blocks, hblocks, BitVec.ofNat_add, BitVec.add_assoc]; rfl
    case events =>
      rw [hdone.events, hevents, hblocks, List.range_succ, List.map_append, List.append_assoc, List.map_singleton]

end Sys2Proof.Machine
end

