-- ==== Sys2Proof/Proofs/HostTransactions.lean ====
section
/-! What each host transaction does and leaves unchanged: reads by the register map, ignored writes, the block buffer,
and the commands of CTRL, performed in IDLE and rejected while busy (44_host_transactions.md R150 to R169). -/

namespace Sys2Proof.Machine

/-! ### Reads (R151 to R153, R161, R162, R164, R165, R167, R169) -/

/-- The answer of a read is no register: the map shows the same after it (R169). -/
@[simp] theorem State.readReg_answer (s : State) (w : Word) (a : Addr) : (s.answer w).readReg a = s.readReg a := rfl

/-- Settles O21: the word decodes by the read rows, and each row answers what the register map names. -/
theorem readAnswersRegisterMap : Obligations.ReadAnswersRegisterMap := by
  intro a w s
  rw [decode_bits_read]
  exact ⟨exec_decodeRead a s, s.readReg_answer (s.readReg a) a⟩

/-- Settles O11: by address through the register map, which names no unmapped address; by row from the rows' meaning. -/
theorem unmappedReadsAnswerZero : Obligations.UnmappedReadsAnswerZero := by
  refine ⟨fun a w s h => ?byAddress, fun a s i hi => ?byRow⟩
  case byAddress =>
    rw [decode_bits_read, exec_decodeRead, s.readReg_unmapped h]
    rfl
  case byRow =>
    simp only [List.mem_cons, List.not_mem_nil, or_false] at hi
    obtain rfl | rfl | rfl | rfl | rfl | rfl := hi <;> rfl

/-- Settles O7: the words decode by the read rows, and the answers are the identity constants and 0. -/
theorem constantReadsAnswer : Obligations.ConstantReadsAnswer := fun w _ =>
  ⟨decode_bits_read 0x00#6 w, rfl, decode_bits_read 0x01#6 w, rfl, decode_bits_read 0x08#6 w, rfl⟩

/-- The three flags by their weights (10_state.md R36). -/
theorem statusWord_eq_ofNat : ∀ err valid ready : Bool, statusWord err valid ready =
    BitVec.ofNat 32 ((if err then 4 else 0) + (if valid then 2 else 0) + (if ready then 1 else 0)) := by
  decide

/-- With VALID only where READY is, the flags make neither 2 nor 6. -/
theorem statusWord_of_valid_imp_ready : ∀ err valid ready : Bool, (valid = true → ready = true) →
    statusWord err valid ready = 0 ∨ statusWord err valid ready = 1 ∨ statusWord err valid ready = 3 ∨
      statusWord err valid ready = 4 ∨ statusWord err valid ready = 5 ∨ statusWord err valid ready = 7 := by
  decide

@[simp] theorem State.ready_eq_true_iff (s : State) : s.ready = true ↔ s.phase = .idle := decide_eq_true_iff

/-- Settles O8: RD_STATUS answers STATUS, whose READY is PHASE = IDLE. -/
theorem statusReadAnswersFlags : Obligations.StatusReadAnswersFlags := by
  intro w s
  refine ⟨decode_bits_read 0x09#6 w, ?_⟩
  simp only [← s.ready_eq_true_iff, ← statusWord_eq_ofNat]
  rfl

/-- Settles O9: the invariant's VALID clause rules out VALID without READY. -/
theorem statusNeverReadsTwoOrSix : Obligations.StatusNeverReadsTwoOrSix := by
  intro s h
  have hready : s.valid = true → s.ready = true := fun hv => s.ready_eq_true_iff.mpr (h.valid hv)
  exact ⟨s.status, rfl, statusWord_of_valid_imp_ready s.err s.valid s.ready hready⟩

/-- Settles O10: the words decode by the read rows, for BLOCK and DIGEST at each index. -/
theorem registerReadsAnswer : Obligations.RegisterReadsAnswer := fun w j k _ =>
  ⟨decode_bits_read 0x0A#6 w, rfl,
    (decode_bits_read (blockAddr j) w).trans (decodeRead_blockAddr j), rfl,
    (decode_bits_read (digestAddr k) w).trans (decodeRead_digestAddr k), rfl⟩

/-! ### Ignored writes (R154, R166, R168) -/

/-- The unmapped ranges hold neither CTRL nor a BLOCK word. -/
theorem isUnmapped_outside_ctrl_block {a : Addr} (h : isUnmapped a = true) :
    a ≠ 0x08#6 ∧ Addr.within a 0x10 0x1F = false := by
  revert a; decide

/-- Settles O13: by address since only CTRL and BLOCK take a write; by row from the rows' meaning. -/
theorem unmappedWritesHaveNoEffect : Obligations.UnmappedWritesHaveNoEffect := by
  refine ⟨fun a d s h => ?byAddress, fun a d s i hi => ?byRow⟩
  case byAddress =>
    obtain ⟨hctrl, hblock⟩ := isUnmapped_outside_ctrl_block h
    exact writesOutsideCtrlAndBlockHaveNoEffect a d s hctrl hblock
  case byRow =>
    simp only [List.mem_cons, List.not_mem_nil, or_false] at hi
    obtain rfl | rfl | rfl | rfl | rfl | rfl := hi <;> rfl

/-- Settles O12: the words decode by the write rows, for DIGEST at each index. -/
theorem readOnlyWritesHaveNoEffect : Obligations.ReadOnlyWritesHaveNoEffect := fun d k _ =>
  ⟨decode_bits_write 0x00#6 d, rfl, decode_bits_write 0x01#6 d, rfl, decode_bits_write 0x09#6 d, rfl,
    decode_bits_write 0x0A#6 d, rfl,
    (decode_bits_write (digestAddr k) d).trans (decodeWrite_digestAddr k d), rfl⟩

/-- Settles O14: the two command bits choose the row WR_CTRL_NOP. -/
theorem ctrlWriteOfNoCommandHasNoEffect : Obligations.CtrlWriteOfNoCommandHasNoEffect := by
  intro d s hinit hnext
  refine ⟨?decoded, rfl⟩
  calc decode (Tx.bits ⟨true, 0x08#6, d⟩) = decodeCtrl d := decode_bits_write 0x08#6 d
    _ = .wrCtrlNop (reservedBits d) := by simp only [decodeCtrl, nextBit, initBit, hinit, hnext]

/-! ### The block buffer (R163) -/

/-- A block write is seen at its own place and at no other (20_memory.md R58). -/
theorem State.setBlkWord_get (s : State) (j k : Fin 16) (d : Word) :
    (s.setBlkWord j d).blk[k] = if k = j then d else s.blk[k] := by
  simp only [setBlkWord_blk, Fin.getElem_fin, Vector.getElem_set, Fin.val_inj, eq_comm]

/-- Settles O15: the stored word is seen by the next read of its register, and the other words are not touched. -/
theorem blockWriteStoresWord : Obligations.BlockWriteStoresWord := by
  intro j d s
  refine ⟨(s.setBlkWord j d).noAnswer, ?decoded, rfl, rfl, fun k => s.setBlkWord_get j k d, ?readBack⟩
  case decoded => exact (decode_bits_write (blockAddr j) d).trans (decodeWrite_blockAddr j d)
  case readBack =>
    have hword : (s.setBlkWord j d).noAnswer.blkWord j = d := (s.setBlkWord_get j j d).trans (if_pos rfl)
    exact congrArg (fun w => Host.Outcome.next ((s.setBlkWord j d).noAnswer.answer w)) hword

/-! ### The commands (R155 to R160) -/

/-- The command bits stand together below the reserved bits (30_encoding.md R74). -/
theorem ctrlData_eq_append (r : BitVec 30) (next init : Bool) :
    ctrlData r next init = r ++ (BitVec.ofBool next ++ BitVec.ofBool init) := by
  rw [ctrlData, BitVec.append_assoc]
  rfl

/-- INIT in IDLE is DoInit (R155). -/
theorem exec_wrCtrlInit_idle {s : State} (r : BitVec 30) (hp : s.phase = .idle) :
    exec (.wrCtrlInit r) s = .next s.doInit.noAnswer :=
  congrArg (fun u : State => Host.Outcome.next u.noAnswer) (s.command_idle _ hp)

/-- A CTRL write with the two command bits below its reserved bits decodes by them, whatever the reserved bits are. -/
theorem decode_append_command (r : BitVec 30) (next init : Bool) :
    decode (Tx.bits ⟨true, 0x08#6, r ++ (BitVec.ofBool next ++ BitVec.ofBool init)⟩) =
      decodeCtrl (ctrlData r next init) := by
  rw [← ctrlData_eq_append, decode_bits_write, decodeWrite_ctrl]

/-- Settles O16: the bits 01 are INIT alone, and INIT in IDLE is DoInit. -/
theorem initWhileIdlePerformsDoInit : Obligations.InitWhileIdlePerformsDoInit := fun r _ hp =>
  ⟨(decode_append_command r false true).trans (by simp [decodeCtrl]), exec_wrCtrlInit_idle r hp⟩

/-- Settles O17: the bits 10 are NEXT alone, which in IDLE starts a pass from the state as it is. -/
theorem nextWhileIdlePerformsDoNext : Obligations.NextWhileIdlePerformsDoNext := fun r _ hp =>
  ⟨(decode_append_command r true false).trans (by simp [decodeCtrl]), exec_startInstr_idle false r hp⟩

/-- Settles O18: the bits 11 are both commands, and DoNext runs on the state that DoInit leaves. -/
theorem initNextWhileIdlePerformsBoth : Obligations.InitNextWhileIdlePerformsBoth := fun r _ hp =>
  ⟨(decode_append_command r true true).trans (by simp [decodeCtrl]), exec_startInstr_idle true r hp⟩

/-- Settles O19: all three commands go through `State.command`, which rejects while busy. -/
theorem commandWhileBusyOnlySetsErr : Obligations.CommandWhileBusyOnlySetsErr := by
  intro r s hb i hi
  have hreject (perform : State → State) :
      (Host.Outcome.next (s.command perform).noAnswer : Result) = .next s.reject.noAnswer := by
    rw [State.command_busy _ _ hb]
  simp only [List.mem_cons, List.not_mem_nil, or_false] at hi
  obtain rfl | rfl | rfl := hi <;> exact hreject _

/-- Settles O52: INIT in IDLE is DoInit, which writes the reset values of HS, BLOCKS, VALID and ERR; the invariant
gives the reset value of T. -/
theorem initLeavesNoResidue : Obligations.InitLeavesNoResidue := by
  intro s t r hinv hp ht
  rw [exec_wrCtrlInit_idle r hp] at ht
  obtain rfl := Host.Outcome.next.inj ht
  exact { SameObservation.refl s.doInit.noAnswer with
    t := hinv.idle hp
    phase := hp
    vars := fun hb => absurd hp hb
    win := fun hb => absurd hp hb }

/-! ### Every transaction (R150) -/

/-- Settles O20: a transaction that is no command writes at most BLK and its answer; of what a command can do, only
DoNext in IDLE writes the datapath. -/
theorem everyTransactionCompletes : Obligations.EveryTransactionCompletes := by
  intro i s
  obtain ⟨t, ht⟩ := exec_completes i s
  refine ⟨t, ht, ?_⟩
  obtain ⟨w, rfl⟩ | rfl | ⟨j, d, rfl, rfl⟩ | ⟨r, rfl, rfl⟩ | ⟨r, rfl, rfl⟩ | ⟨r, rfl, rfl⟩ := exec_cases ht
  case inl | inr.inl | inr.inr.inl => simp
  all_goals
    by_cases hp : s.phase = .idle
    · simp [State.command_idle _ _ hp, hp, asksNext]
    · simp [State.command_busy _ _ hp]

end Sys2Proof.Machine
end

