-- ==== Sys2Proof/Proofs/MessageBlocks.lean ====
section
/-! From a message to its blocks and its program: padding, big-endian packing, the count of blocks, the length limit,
and the streaming host (45_host_message_protocol.md R180 to R186, R189). -/

namespace Sys2Proof.Machine

/-! ### Padding and the count of blocks (R180, R181, R184) -/

@[simp] theorem length_be64 (l : Nat) : (be64 l).length = 8 := rfl

@[simp] theorem length_padding (n : Nat) : (padding n).length = zeroCount n + 9 := by simp [padding]

theorem length_pad (m : List Byte) : (pad m).length = 64 * blockCount m.length := by
  rw [pad, List.length_append, length_padding, zeroCount, blockCount]
  omega

theorem length_messageBlocks (m : List Byte) : (messageBlocks m).length = blockCount m.length := by
  rw [messageBlocks, length_streamBlocks, length_pad]
  omega

/-- Settles O54: the lengths of the parts add up to a multiple of 64. -/
theorem paddingFillsWholeBlocks : Obligations.PaddingFillsWholeBlocks := by
  intro m
  refine ⟨?stream, ?fills, ?least, length_pad m, ?ceiling, length_messageBlocks m⟩
  case stream => simp [pad, padding]
  case fills => rw [zeroCount]; omega
  case least =>
    intro z hz
    rw [zeroCount] at hz
    omega
  case ceiling => rw [blockCount]; omega

/-! ### Byte order (R182, R183) -/

/-- The number that bytes spell, the most significant first. -/
def bigEndianValue (bytes : List Byte) : Nat := bytes.foldl (fun n b => 256 * n + b.toNat) 0

theorem bigEndianValue_concat (bytes : List Byte) (b : Byte) :
    bigEndianValue (bytes ++ [b]) = 256 * bigEndianValue bytes + b.toNat := by
  simp [bigEndianValue]

/-- The first n bytes of be64(L) spell the top 8n of its 64 bits. -/
theorem bigEndianValue_be64_leading {l n : Nat} (hl : l < 2 ^ 64) (hn : n ≤ 8) :
    bigEndianValue ((List.range n).map fun i => (BitVec.ofNat 64 l).extractLsb' (56 - 8 * i) 8) =
      l / 2 ^ (64 - 8 * n) := by
  induction n with
  | zero => exact (Nat.div_eq_of_lt hl).symm
  | succ n ih =>
    have htop : l / 2 ^ (64 - 8 * n) = l / 2 ^ (56 - 8 * n) / 256 := by
      rw [Nat.div_div_eq_div_mul, show 64 - 8 * n = 56 - 8 * n + 8 by omega, Nat.pow_add]
    rw [List.range_succ, List.map_append, List.map_singleton, bigEndianValue_concat, ih (by omega), htop,
      BitVec.extractLsb'_toNat, BitVec.toNat_ofNat, Nat.mod_eq_of_lt hl, Nat.shiftRight_eq_div_pow,
      show 64 - 8 * (n + 1) = 56 - 8 * n by omega]
    exact Nat.div_add_mod _ 256

theorem packWord_eq_append (b0 b1 b2 b3 : Byte) : packWord b0 b1 b2 b3 = b0 ++ b1 ++ b2 ++ b3 := by
  refine BitVec.eq_of_getLsbD_eq fun i hi => ?_
  simp only [packWord, BitVec.getLsbD_or, BitVec.getLsbD_shiftLeft, BitVec.getLsbD_setWidth, BitVec.getLsbD_append]
  grind

theorem packWord_toNat (b0 b1 b2 b3 : Byte) : (packWord b0 b1 b2 b3).toNat =
    b0.toNat * 2 ^ 24 + b1.toNat * 2 ^ 16 + b2.toNat * 2 ^ 8 + b3.toNat := by
  rw [packWord_eq_append, toNat_append_eq_add, toNat_append_eq_add, toNat_append_eq_add]
  omega

theorem getElem?_eq_some_getD {p : List Byte} {i : Nat} (h : i < p.length) : p[i]? = some (p.getD i 0) := by
  simp [h]

/-- Settles O55: the length field by its leading bytes, the word as its four bytes side by side, and the block's words by
their place in the stream. -/
theorem wordsAndLengthAreBigEndian : Obligations.WordsAndLengthAreBigEndian := by
  refine ⟨fun l hl => ⟨?_, length_be64 l⟩, packWord_toNat, fun m b j hb => ?_⟩
  · exact (bigEndianValue_be64_leading hl le_rfl).trans (Nat.div_one l)
  · have hj := j.isLt
    refine ⟨streamBlock (pad m) b, _, _, _, _, ?_, getElem?_eq_some_getD (by omega), getElem?_eq_some_getD (by omega),
      getElem?_eq_some_getD (by omega), getElem?_eq_some_getD (by omega), ?_⟩
    · simp [messageBlocks, streamBlocks, hb]
    · simp [streamBlock, streamWord, show 4 * (16 * b + j.val) = 64 * b + 4 * j.val by omega]

/-! ### The length limit (R185) -/

theorem messageProgram_of_overLimit {m : List Byte} (h : OverLimit m.length) :
    messageProgram m = .error .messageTooLong := if_pos h

theorem messageProgram_of_not_overLimit {m : List Byte} (h : ¬ OverLimit m.length) :
    messageProgram m = .ok (blockLoop (messageBlocks m)) := if_neg h

/-- A host that has a program has the block loop. -/
theorem eq_blockLoop_of_messageProgram {m : List Byte} {prog : List HostOp} (h : messageProgram m = .ok prog) :
    prog = blockLoop (messageBlocks m) := by
  rw [messageProgram] at h
  split_ifs at h
  exact (Except.ok.inj h).symm

theorem messageBlocks_ne_nil (m : List Byte) : messageBlocks m ≠ [] := by
  rw [← List.length_pos_iff, length_messageBlocks, blockCount]
  omega

/-- Settles O60: the limit is the program's own test, and the count of blocks is positive. -/
theorem overlongMessageIsRefused : Obligations.OverlongMessageIsRefused := fun m =>
  ⟨messageProgram_of_overLimit,
    fun h => ⟨messageProgram_of_not_overLimit (Nat.not_lt.mpr h), messageBlocks_ne_nil m⟩⟩

/-! ### The streaming host (R189) -/

/-- A chunk within the limit is answered with the blocks it completes, before those of the chunks after it. -/
theorem Stream.blocks_cons {st : Stream} {c : List Byte} (h : ¬ OverLimit (st.count + c.length))
    (cs : List (List Byte)) : st.blocks (c :: cs) =
      (Stream.blocks ⟨(st.pending ++ c).drop (64 * ((st.pending ++ c).length / 64)), st.count + c.length⟩ cs).map
        (streamBlocks (st.pending ++ c) ++ ·) := by
  rw [Stream.blocks, Stream.feed_ok h]

/-- Within the limit a streaming host sends the blocks of the bytes it keeps, the chunks still to come and the padding
of the whole count. -/
theorem Stream.blocks_ok {st : Stream} {chunks : List (List Byte)}
    (h : ¬ OverLimit (st.count + chunks.flatten.length)) : st.blocks chunks =
      .ok (streamBlocks (st.pending ++ chunks.flatten ++ padding (st.count + chunks.flatten.length))) := by
  induction chunks generalizing st with
  | nil => simpa [Stream.blocks] using Stream.finish_ok h
  | cons c cs ih =>
    rw [List.flatten_cons, List.length_append, ← Nat.add_assoc] at h ⊢
    rw [Stream.blocks_cons (by omega), ih h, ← List.append_assoc st.pending, List.append_assoc (st.pending ++ c),
      streamBlocks_append (st.pending ++ c), ← List.append_assoc (List.drop _ _)]
    rfl

theorem Stream.blocks_overLimit {st : Stream} {chunks : List (List Byte)}
    (h : OverLimit (st.count + chunks.flatten.length)) : st.blocks chunks = .error .messageTooLong := by
  induction chunks generalizing st with
  | nil => exact Stream.finish_overLimit h
  | cons c cs ih =>
    rw [List.flatten_cons, List.length_append, ← Nat.add_assoc] at h
    by_cases hc : OverLimit (st.count + c.length)
    · rw [Stream.blocks, Stream.feed_overLimit hc]
    · rw [Stream.blocks_cons hc, ih h]
      rfl

/-- Settles O57: both hosts make the same test of the same length, and the streaming host's blocks are those of the
whole stream. -/
theorem streamingSendsTheSameBlocks : Obligations.StreamingSendsTheSameBlocks := by
  intro chunks
  have hcount : Stream.empty.count + chunks.flatten.length = chunks.flatten.length := Nat.zero_add _
  have hover (h : OverLimit chunks.flatten.length) : Stream.empty.blocks chunks = .error .messageTooLong :=
    Stream.blocks_overLimit (hcount.symm ▸ h)
  have hwithin (h : ¬ OverLimit chunks.flatten.length) :
      Stream.empty.blocks chunks = .ok (messageBlocks chunks.flatten) := by
    rw [Stream.blocks_ok (hcount.symm ▸ h), hcount]
    rfl
  refine ⟨fun h => hwithin (Nat.not_lt.mpr h), hover, ?_⟩
  rw [streamProgram]
  by_cases h : OverLimit chunks.flatten.length
  · rw [hover h, messageProgram_of_overLimit h]
    rfl
  · rw [hwithin h, messageProgram_of_not_overLimit h]
    rfl

end Sys2Proof.Machine
end

