-- ==== Sys2Proof/Proofs/DigestRendering.lean ====
section
/-! The bytes and the hexadecimal digits of the digest by their positions (45_host_message_protocol.md R190, R191). -/

namespace Sys2Proof.Machine

/-- Where every element gives n pieces, the pieces of element k stand at n k on. -/
theorem getElem?_flatMap_of_length {α β : Type} {f : α → List β} {n : Nat} (hf : ∀ a, (f a).length = n)
    {l : List α} {k i : Nat} {a : α} (ha : l[k]? = some a) (hi : i < n) : (l.flatMap f)[n * k + i]? = (f a)[i]? := by
  induction l generalizing k with
  | nil => simp at ha
  | cons b l ih =>
    rw [List.flatMap_cons]
    cases k with
    | zero =>
      obtain rfl : b = a := by simpa using ha
      rw [Nat.mul_zero, Nat.zero_add, List.getElem?_append_left (by rwa [hf])]
    | succ k =>
      rw [Nat.mul_succ, Nat.add_right_comm, List.getElem?_append_right (by rw [hf]; omega), hf, Nat.add_sub_cancel]
      exact ih (by simpa using ha)

theorem length_flatMap_of_length {α β : Type} {f : α → List β} {n : Nat} (hf : ∀ a, (f a).length = n)
    (l : List α) : (l.flatMap f).length = n * l.length := by
  simp [List.length_flatMap, hf, Nat.mul_comm]

theorem length_wordBytes (w : Word) : (wordBytes w).length = 4 := rfl

theorem length_hexByte (b : Byte) : (hexByte b).length = 2 := rfl

theorem length_digestBytes (hs : HashState) : (digestBytes hs).length = 32 := by
  rw [digestBytes, length_flatMap_of_length length_wordBytes, Vector.length_toList]

theorem length_digestHex (hs : HashState) : (digestHex hs).length = 64 := by
  rw [digestHex, length_flatMap_of_length length_hexByte, length_digestBytes]

/-- A nibble's digit is the one at its place among the sixteen (R191). -/
theorem hexDigits_getElem? : ∀ n : BitVec 4, "0123456789abcdef".toList[n.toNat]? = some (hexDigit n) := by decide

theorem hexDigit_mem (n : BitVec 4) : hexDigit n ∈ "0123456789abcdef".toList :=
  List.mem_of_getElem? (hexDigits_getElem? n)

/-- Settles O56: each word gives four bytes and each byte two digits, so that every place of the string is known. -/
theorem digestRendersAsLowercaseHex : Obligations.DigestRendersAsLowercaseHex := by
  intro hs
  refine ⟨fun k i => ?bytes, length_digestBytes hs, length_digestHex hs, fun c hc => ?digits, fun n => ?places⟩
  case bytes =>
    have hk : hs.toList[k.val]? = some hs[k] := by simp
    rw [digestBytes, getElem?_flatMap_of_length length_wordBytes hk i.isLt]
    simp [wordBytes]
  case digits =>
    obtain ⟨b, -, hb⟩ := List.mem_flatMap.mp hc
    simp only [hexByte, List.mem_cons, List.not_mem_nil, or_false] at hb
    obtain rfl | rfl := hb <;> exact hexDigit_mem _
  case places =>
    have hn : (digestBytes hs)[n.val]? = some ((digestBytes hs)[n.val]'(by rw [length_digestBytes]; exact n.isLt)) :=
      List.getElem?_eq_getElem _
    have hplace {i : Nat} (hi : i < 2) := getElem?_flatMap_of_length length_hexByte hn hi
    refine ⟨_, hn, ?_, ?_⟩
    · exact (hplace (i := 0) (by decide)).trans (hexDigits_getElem? _).symm
    · exact (hplace (i := 1) (by decide)).trans (hexDigits_getElem? _).symm

end Sys2Proof.Machine
end

