-- ==== Sys2Proof/Proofs/ProofOutlines.lean ====
section
/-! Proof outlines of a host's program: an assertion before each of its operations, which the turns of ENGINE keep and
the operation leads on to the next. A claim that the assertions give holds at every point of every interleaving
(20_memory.md R53). -/

namespace Sys2Proof.Machine

/-- A transaction leaves the host's program and the interleaving alone. -/
theorem exec_host_sched {i : Instr} {s t : State} (h : exec i s = .next t) : t.host = s.host ∧ t.sched = s.sched := by
  obtain ⟨u, hu, -, -, -, hhost, hsched⟩ := everyTransactionCompletes i s
  obtain rfl := Host.Outcome.next.inj (h.symm.trans hu)
  exact ⟨hhost, hsched⟩

/-! ### Assertions that other turns cannot disturb -/

/-- The engine's steps keep `P`, and it does not speak of RDATA, DONE_Q, the program and the interleaving. -/
structure Stable (P : State → Prop) : Prop where
  engine : ∀ {s : State}, P s → P (engineStep s)
  frame : ∀ {s : State} (w : Option Word) (prog : List HostOp) (q : List Turn) (d : Bool), P s →
    P { s with rdata := w, host := prog, sched := q, doneQ := d }

/-- In IDLE the engine takes no step. -/
theorem Stable.and_idle {P : State → Prop} (h : Stable P) : Stable fun s => s.phase = .idle ∧ P s where
  engine := fun ⟨hp, hs⟩ => by rw [engineStep_idle hp]; exact ⟨hp, hs⟩
  frame w prog q d := fun ⟨hp, hs⟩ => ⟨hp, h.frame w prog q d hs⟩

/-- No engine step writes BLK (10_state.md R39). -/
theorem Stable.and_blk {P : State → Prop} (h : Stable P) (B : Block → Prop) : Stable fun s => B s.blk ∧ P s where
  engine {s} := fun ⟨hB, hs⟩ => by
    obtain ⟨-, hblk, -⟩ := engineStepAt_frame s.phase s
    exact ⟨hblk.symm ▸ hB, h.engine hs⟩
  frame w prog q d := fun ⟨hB, hs⟩ => ⟨hB, h.frame w prog q d hs⟩

/-! ### Outlines -/

/-- A proof outline of the program `ops` from the assertion `P`: every assertion along it is stable and gives the claim
`C` about the operations that are left. A POLL leads on only with the masked word equal to its value (30_encoding.md
R79). -/
inductive Outline (C : List HostOp → State → Prop) : (State → Prop) → List HostOp → Prop where
  | done {P : State → Prop} (stable : Stable P) (claim : ∀ s, P s → C [] s) : Outline C P []
  | tx {P R : State → Prop} {b : TxWord} {ops : List HostOp} (stable : Stable P)
      (claim : ∀ s, P s → C (.tx b :: ops) s)
      (effect : ∀ s t, P s → exec (decode b) s = .next t → R t)
      (rest : Outline C R ops) : Outline C P (.tx b :: ops)
  | poll {P R : State → Prop} {a : Addr} {mask value : Word} {ops : List HostOp} (stable : Stable P)
      (claim : ∀ s, P s → C (.poll a mask value :: ops) s)
      (effect : ∀ s, P s → s.readReg a &&& mask = value → R s)
      (rest : Outline C R ops) : Outline C P (.poll a mask value :: ops)

/-- The state stands at a point of some outline whose assertion it meets. -/
def OnOutline (C : List HostOp → State → Prop) (s : State) : Prop := ∃ P, Outline C P s.host ∧ P s

section
variable {C : List HostOp → State → Prop}

theorem Outline.stable {P : State → Prop} {ops : List HostOp} (h : Outline C P ops) : Stable P := by
  cases h <;> assumption

theorem Outline.claim {P : State → Prop} {ops : List HostOp} (h : Outline C P ops) {s : State} (hs : P s) :
    C ops s := by
  cases h with
  | done _ claim | tx _ claim | poll _ claim => exact claim s hs

/-- An outline may begin with a stronger assertion. -/
theorem Outline.of_imp {P Q : State → Prop} {ops : List HostOp} (h : Outline C Q ops) (hP : Stable P)
    (himp : ∀ s, P s → Q s) : Outline C P ops := by
  cases h with
  | done _ claim => exact .done hP fun s hs => claim s (himp s hs)
  | tx _ claim effect rest =>
    exact .tx hP (fun s hs => claim s (himp s hs)) (fun s t hs => effect s t (himp s hs)) rest
  | poll _ claim effect rest =>
    exact .poll hP (fun s hs => claim s (himp s hs)) (fun s hs => effect s (himp s hs)) rest

theorem OnOutline.claim {s : State} (h : OnOutline C s) : C s.host s := by
  obtain ⟨P, houtline, hs⟩ := h
  exact houtline.claim hs

/-- HOST's turn goes on to the next assertion, or stays at a POLL that has not matched. -/
theorem OnOutline.hostTurn_next {s : State} (h : OnOutline C s) :
    ∃ t, hostTurn s = .next t ∧ t.sched = s.sched ∧ OnOutline C t := by
  obtain ⟨P, houtline, hs⟩ := h
  generalize hh : s.host = ops at houtline
  have hstay (w : Option Word) : OnOutline C { s with rdata := w } :=
    ⟨P, by rwa [hh], houtline.stable.frame w s.host s.sched s.doneQ hs⟩
  cases houtline with
  | done => exact ⟨s, by rw [hostTurn, hh], rfl, hstay s.rdata⟩
  | @tx _ R b ops hP _ effect rest =>
    obtain ⟨t, ht⟩ := exec_completes (decode b) { s with host := ops }
    obtain ⟨hhost, hsched⟩ := exec_host_sched ht
    exact ⟨t, (hostTurn_of_tx hh).trans ht, hsched, R, hhost.symm ▸ rest,
      effect _ t (hP.frame s.rdata ops s.sched s.doneQ hs) ht⟩
  | @poll _ R a mask value ops _ _ effect rest =>
    refine ⟨_, hostTurn_of_poll hh, rfl, ?_⟩
    split_ifs with hmatch
    · exact ⟨R, rest, rest.stable.frame _ ops s.sched s.doneQ (effect s hs hmatch)⟩
    · exact hstay _

/-- A step of HOST or ENGINE stays on the outline. -/
theorem OnOutline.step_agent {s : State} {u : Turn} {q : List Turn} (h : OnOutline C s) (hq : s.sched = u :: q)
    (hu : u.isAgent) : ∃ t, step s = .next t ∧ t.sched = q ∧ OnOutline C t := by
  obtain ⟨P, houtline, hs⟩ := h
  have hbegin : P { s with sched := q, doneQ := false } := houtline.stable.frame s.rdata s.host q false hs
  rw [step_of_sched hq]
  obtain rfl | rfl := hu
  · exact OnOutline.hostTurn_next ⟨P, houtline, hbegin⟩
  · obtain ⟨-, -, -, hhost, hsched⟩ := engineStepAt_frame s.phase { s with sched := q, doneQ := false }
    exact ⟨_, rfl, hsched, P, hhost.symm ▸ houtline, houtline.stable.engine hbegin⟩

/-- At every point of every interleaving of HOST and ENGINE the claim holds. -/
theorem OnOutline.run_claim {k : Nat} {s t : State} (h : OnOutline C s) (hagent : ∀ u ∈ s.sched, u.isAgent)
    (hk : k ≤ s.sched.length) (hrun : run k s = .next t) : C t.host t := by
  induction k generalizing s with
  | zero =>
    cases hrun
    exact h.claim
  | succ k ih =>
    cases hq : s.sched with
    | nil => simp [hq] at hk
    | cons u q =>
      rw [hq, List.forall_mem_cons] at hagent
      obtain ⟨hu, hagent⟩ := hagent
      rw [hq, List.length_cons, Nat.add_le_add_iff_right] at hk
      obtain ⟨v, hstep, hv, hon⟩ := h.step_agent hq hu
      rw [run_succ hstep] at hrun
      exact ih hon (hv.symm ▸ hagent) (hv.symm ▸ hk) hrun

end

end Sys2Proof.Machine
end

