-- ==== Sys2Proof/Proofs/BlockLoop.lean ====
section
/-! The block loop of a message (45_host_message_protocol.md R186) as a proof outline: no command of it is rejected, and
after its last WAIT the engine is idle with the digest in HS (R188, R192). -/

namespace Sys2Proof.Machine

/-! ### The pass that a start command leaves behind -/

/-- The block pass that began in `p` is in progress, or has ended with no other begun since. -/
def PassBegun (p s : State) : Prop := (∃ n, PassAfter p n s) ∨ PassDone p s

theorem PassAfter.le {p s : State} {n : Nat} (h : PassAfter p n s) : n ≤ 64 := by
  by_contra hn
  have hround : s.phase = .round := by rw [h.phase, if_neg (by omega)]
  have hcount := h.pass.count hround
  rw [h.counter] at hcount
  omega

theorem PassBegun.engineStep {p s : State} (h : PassBegun p s) : PassBegun p (engineStep s) := by
  obtain ⟨n, hpass⟩ | hdone := h
  · obtain hn | rfl := hpass.le.lt_or_eq
    · exact .inl ⟨n + 1, hpass.engineStep_succ hn⟩
    · exact .inr hpass.engineStep_done
  · rw [engineStep_idle hdone.phase]
    exact .inr hdone

/-- The host's writes to BLK and its moves in the program do not touch the pass (20_memory.md R61). -/
theorem PassBegun.congr {p s t : State} (h : PassBegun p s) (ht : t = { s with
    err := t.err, blk := t.blk, doneQ := t.doneQ, rdata := t.rdata, host := t.host, sched := t.sched }) :
    PassBegun p t := by
  rw [ht]
  obtain ⟨n, hpass⟩ | ⟨hhash, hphase, hcounter, hvalid, hblocks, hevents⟩ := h
  · exact .inl ⟨n, hpass.congr rfl⟩
  · exact .inr ⟨hhash, hphase, hcounter, hvalid, hblocks, hevents⟩

theorem PassBegun.done_of_idle {p s : State} (h : PassBegun p s) (hp : s.phase = .idle) : PassDone p s := by
  obtain ⟨n, hpass⟩ | hdone := h
  · exact absurd hp hpass.busy
  · exact hdone

/-! ### What the host may rely on while it sends blocks -/

/-- ERR, if 0 in `s₀`, is still 0. -/
def ErrKept (s₀ s : State) : Prop := s₀.err = false → s.err = false

/-- The blocks `sent` have been given to the engine with none rejected: the pass on the last of them has begun, from the
chaining value that the others leave (43_block_feedback.md R142). -/
structure Sent (sent : List Block) (s : State) : Prop where
  err : s.err = false
  pass : ∃ p : State,
    compress p.hs p.blk = chain IV sent ∧ p.blocks + 1 = BitVec.ofNat 32 sent.length ∧ PassBegun p s

/-- The engine is idle with the blocks `ms` hashed from IV. -/
structure Hashed (ms : List Block) (s : State) : Prop where
  phase : s.phase = .idle
  valid : s.valid = true
  err : s.err = false
  hash : s.hs = chain IV ms
  blocks : s.blocks = BitVec.ofNat 32 ms.length

/-- What the protocol promises with the operations `ops` left; at most the eight DIGEST reads are left when the last
WAIT has ended. -/
def Promise (s₀ : State) (ms : List Block) (ops : List HostOp) (s : State) : Prop :=
  ErrKept s₀ s ∧ (ops.length ≤ 8 → Hashed ms s)

theorem promise_of_lt {s₀ s : State} {ms : List Block} {ops : List HostOp} (hlen : 8 < ops.length)
    (h : ErrKept s₀ s) : Promise s₀ ms ops s := ⟨h, fun hle => absurd hle hlen.not_ge⟩

theorem Sent.errKept {s₀ s : State} {sent : List Block} (h : Sent sent s) : ErrKept s₀ s := fun _ => h.err

theorem Hashed.errKept {s₀ s : State} {ms : List Block} (h : Hashed ms s) : ErrKept s₀ s := fun _ => h.err

theorem statusWord_and_one_iff :
    ∀ err valid ready : Bool, statusWord err valid ready &&& 1 = 1 ↔ ready = true := by decide

/-- WAIT ends in IDLE and nowhere else: READY is bit 0 of STATUS (10_state.md R25, R36). -/
theorem State.wait_matches_iff (s : State) : s.readReg Reg.status.addr &&& 1 = 1 ↔ s.phase = .idle :=
  (statusWord_and_one_iff _ _ _).trans s.ready_eq_true_iff

theorem Sent.hashed {ms : List Block} {s : State} (h : Sent ms s) (hp : s.phase = .idle) : Hashed ms s := by
  obtain ⟨herr, p, hhash, hblocks, hpass⟩ := h
  have hdone := hpass.done_of_idle hp
  exact ⟨hp, hdone.valid, herr, hdone.hash.trans hhash, hdone.blocks.trans hblocks⟩

/-- An accepted start command leaves its block sent, ERR being 0 before it or cleared by its INIT. -/
theorem sent_of_start {s t : State} {withInit : Bool} {sent : List Block} (hp : s.phase = .idle)
    (herr : (s.passStart withInit).err = false)
    (hhash : compress (s.passStart withInit).hs (s.passStart withInit).blk = chain IV sent)
    (hblocks : (s.passStart withInit).blocks + 1 = BitVec.ofNat 32 sent.length)
    (ht : exec (startInstr withInit 0) s = .next t) : Sent sent t := by
  rw [exec_startInstr_idle withInit 0 hp] at ht
  obtain rfl := Host.Outcome.next.inj ht
  exact ⟨herr, _, hhash, hblocks, .inl ⟨0, (State.passAfter_doNext _).congr rfl⟩⟩

/-! ### The assertions are stable -/

theorem stable_errKept (s₀ : State) : Stable (ErrKept s₀) where
  engine {s} h := fun h₀ => by
    obtain ⟨herr, -⟩ := engineStepAt_frame s.phase s
    exact herr.trans (h h₀)
  frame _ _ _ _ h := h

theorem stable_sent (sent : List Block) : Stable (Sent sent) where
  engine {s} h := by
    obtain ⟨herr, p, hhash, hblocks, hpass⟩ := h
    obtain ⟨hkeep, -⟩ := engineStepAt_frame s.phase s
    exact ⟨hkeep.trans herr, p, hhash, hblocks, hpass.engineStep⟩
  frame _ _ _ _ h := by
    obtain ⟨herr, p, hhash, hblocks, hpass⟩ := h
    exact ⟨herr, p, hhash, hblocks, hpass.congr rfl⟩

theorem Sent.with_blk {sent : List Block} {s : State} (h : Sent sent s) (b : Block) :
    Sent sent { s with blk := b } := by
  obtain ⟨herr, p, hhash, hblocks, hpass⟩ := h
  exact ⟨herr, p, hhash, hblocks, hpass.congr rfl⟩

theorem stable_hashed (ms : List Block) : Stable (Hashed ms) where
  engine h := by rwa [engineStep_idle h.phase]
  frame _ _ _ _ h := ⟨h.phase, h.valid, h.err, h.hash, h.blocks⟩

/-! ### One rule per pseudo-instruction (30_encoding.md R79) -/

section
variable {C : List HostOp → State → Prop} {P : State → Prop} {ops : List HostOp}

/-- After WAIT the engine is idle. -/
theorem Outline.wait (hP : Stable P) (hC : ∀ s, P s → C (opWait :: ops) s)
    (rest : Outline C (fun s => s.phase = .idle ∧ P s) ops) : Outline C P (opWait :: ops) :=
  .poll hP hC (fun s hs hmatch => ⟨s.wait_matches_iff.mp hmatch, hs⟩) rest

/-- BLK holds the words of `m`, those with an index in `js` excepted. -/
def LoadedBut (m : Block) (js : List (Fin 16)) (b : Block) : Prop := ∀ j : Fin 16, j ∉ js → b[j] = m[j]

theorem LoadedBut.eq {m b : Block} (h : LoadedBut m [] b) : b = m :=
  Vector.ext fun j hj => h ⟨j, hj⟩ List.not_mem_nil

/-- A write to BLOCK[j] loads that word. -/
theorem LoadedBut.set {m b : Block} {j : Fin 16} {js : List (Fin 16)} (h : LoadedBut m (j :: js) b) :
    LoadedBut m js (b.set j.val m[j]) := by
  intro k hk
  by_cases hkj : j = k
  · simp [hkj]
  · have hne : j.val ≠ k.val := fun he => hkj (Fin.ext he)
    simpa [Vector.getElem_set_ne, hne] using h k (by simp [hk, Ne.symm hkj])

/-- After WRBLK the block stands in BLK, whatever the engine does meanwhile (44_host_transactions.md R163). -/
theorem Outline.wrBlk {m : Block} (hP : Stable P) (hblk : ∀ s b, P s → P { s with blk := b })
    (hC : ∀ ops' s, ops.length ≤ ops'.length → P s → C ops' s)
    (rest : Outline C (fun s => s.blk = m ∧ P s) ops) : Outline C P (opsWrBlk m ++ ops) := by
  have hwrites (js : List (Fin 16)) : Outline C (fun s => LoadedBut m js s.blk ∧ P s)
      (js.map (fun j => opWr (.block j) m[j]) ++ ops) := by
    induction js with
    | nil => exact rest.of_imp (hP.and_blk _) fun _ ⟨hword, hs⟩ => ⟨hword.eq, hs⟩
    | cons j js ih =>
      refine .tx (hP.and_blk _) (fun s ⟨_, hs⟩ => hC _ s (by simp; omega) hs) (fun s t ⟨hword, hs⟩ ht => ?_) ih
      rw [Reg.addr, decode_txWrite, decodeWrite_blockAddr] at ht
      obtain rfl := Host.Outcome.next.inj ht
      exact ⟨hword.set, hP.frame none s.host s.sched s.doneQ (hblk s _ hs)⟩
  exact (hwrites (List.finRange 16)).of_imp hP fun s hs => ⟨fun j hj => absurd (List.mem_finRange j) hj, hs⟩

end

/-! ### The outline of the block loop -/

section
variable {s₀ : State} {ms : List Block}

/-- The DIGEST reads leave the digest where it is. -/
theorem outline_digestReads (ks : List (Fin 8)) :
    Outline (Promise s₀ ms) (Hashed ms) (ks.map fun k => opRd (.digest k)) := by
  have hclaim (ops : List HostOp) (s : State) (hs : Hashed ms s) : Promise s₀ ms ops s :=
    ⟨hs.errKept, fun _ => hs⟩
  induction ks with
  | nil => exact .done (stable_hashed ms) (hclaim [])
  | cons k ks ih =>
    refine .tx (stable_hashed ms) (hclaim _) (fun s t hs ht => ?_) ih
    rw [decode_txRead, exec_decodeRead] at ht
    obtain rfl := Host.Outcome.next.inj ht
    exact (stable_hashed ms).frame _ s.host s.sched s.doneQ hs

theorem outline_lastWait : Outline (Promise s₀ ms) (Sent ms) (opWait :: opsRdDig) :=
  .wait (stable_sent ms) (fun _ hs => promise_of_lt (by decide) hs.errKept)
    ((outline_digestReads _).of_imp (stable_sent ms).and_idle fun _ ⟨hp, hs⟩ => hs.hashed hp)

/-- With the last WAIT still to come, more than the DIGEST reads are left. -/
theorem eight_lt_tail_length (later : List Block) : 8 < (laterBlocks later ++ opWait :: opsRdDig).length := by
  simp [opsRdDig]

/-- Each later block is written while the pass before it may still run, and its NEXT waits for that pass (R186). -/
theorem outline_laterBlocks (sent later : List Block) (h : sent ++ later = ms) :
    Outline (Promise s₀ ms) (Sent sent) (laterBlocks later ++ opWait :: opsRdDig) := by
  induction later generalizing sent with
  | nil =>
    obtain rfl : sent = ms := by rw [← h, List.append_nil]
    exact outline_lastWait
  | cons m later ih =>
    have hrest := ih (sent ++ [m]) (by rw [← h, List.append_assoc, List.singleton_append])
    have hloaded := (stable_sent sent).and_blk (· = m)
    have hlong := eight_lt_tail_length later
    rw [laterBlocks, List.flatMap_cons, ← laterBlocks, List.append_assoc, List.append_assoc]
    refine .wrBlk (stable_sent sent) (fun s b hs => hs.with_blk b)
      (fun ops' s hlen hs => promise_of_lt ((hlong.trans (by simp)).trans_le hlen) hs.errKept) ?_
    refine .wait hloaded (fun s ⟨_, hs⟩ => promise_of_lt (hlong.trans (by simp)) hs.errKept)
      (.tx hloaded.and_idle (fun s ⟨_, _, hs⟩ => promise_of_lt (hlong.trans (by simp)) hs.errKept) ?_ hrest)
    rintro s t ⟨hp, hblk, hsent⟩ ht
    obtain ⟨-, -, herr, hhash, hblocks⟩ := hsent.hashed hp
    refine sent_of_start (withInit := false) hp herr ?_ ?_ ht
    · rw [State.passStart_hs, State.passStart_blk, hblk, chain, List.foldl_append, ← chain]
      exact congrArg (compress · m) hhash
    · rw [State.passStart_blocks, List.length_append, BitVec.ofNat_add]
      exact congrArg (· + 1) hblocks

/-- The first block starts from IV with BLOCKS = 0 and ERR = 0, whatever was in progress before (R188). -/
theorem outline_blockLoop (m : Block) (later : List Block) :
    Outline (Promise s₀ (m :: later)) (ErrKept s₀) (blockLoop (m :: later)) := by
  have hidle := (stable_errKept s₀).and_idle
  have hloaded := hidle.and_blk (· = m)
  have hlong := eight_lt_tail_length later
  rw [blockLoop, List.append_assoc, List.cons_append, List.cons_append]
  refine .wait (stable_errKept s₀) (fun s hs => promise_of_lt (hlong.trans (by simp; omega)) hs)
    (.wrBlk hidle (fun s b hs => hs)
      (fun ops' s hlen ⟨_, hs⟩ => promise_of_lt ((hlong.trans (by simp)).trans_le hlen) hs)
      (.tx hloaded (fun s ⟨_, _, hs⟩ => promise_of_lt (hlong.trans (by simp)) hs) ?_
        (outline_laterBlocks [m] later rfl)))
  rintro s t ⟨hblk, hp, -⟩ ht
  refine sent_of_start (withInit := true) hp rfl ?_ ?_ ht
  · rw [State.passStart_hs, State.passStart_blk, hblk]
    rfl
  · rw [State.passStart_blocks]
    rfl

end

/-- Settles O58: the program is the block loop of at least one block, and its outline gives the promise at every
point. -/
theorem protocolYieldsDigest : Obligations.ProtocolYieldsDigest := by
  intro s t m prog turns k hprog hagent hk hrun
  obtain rfl := eq_blockLoop_of_messageProgram hprog
  obtain ⟨b, later, hms⟩ := List.exists_cons_of_ne_nil (messageBlocks_ne_nil m)
  have hon : OnOutline (Promise s (messageBlocks m)) { s with host := blockLoop (messageBlocks m), sched := turns } :=
    ⟨ErrKept s, by rw [hms]; exact outline_blockLoop b later, fun h => h⟩
  obtain ⟨herr, hend⟩ := hon.run_claim hagent hk hrun
  refine ⟨herr, fun hlen => ?_⟩
  obtain ⟨hphase, hvalid, herr₀, hhash, hblocks⟩ := hend hlen
  exact ⟨hphase, hvalid, herr₀, hhash, by rw [hblocks, length_messageBlocks]⟩

end Sys2Proof.Machine
end

