-- ==== Sys2Proof/Proofs/ProtocolProgress.lean ====
section
/-! From every state of the invariant the protocol can run to its end: 65 turns of ENGINE end any pass, and then no
operation of the program can hold HOST up (20_memory.md R53, 70_reset_and_hazards.md R230). -/

namespace Sys2Proof.Machine

/-! ### Turns of ENGINE alone -/

/-- The engine steps that a pass in progress still takes. -/
def State.stepsLeft (s : State) : Nat :=
  match s.phase with
  | .idle => 0
  | .round => 65 - s.t.toNat
  | .final => 1

theorem State.stepsLeft_idle {s : State} (hp : s.phase = .idle) : s.stepsLeft = 0 := by rw [stepsLeft, hp]
theorem State.stepsLeft_round {s : State} (hp : s.phase = .round) : s.stepsLeft = 65 - s.t.toNat := by
  rw [stepsLeft, hp]
theorem State.stepsLeft_final {s : State} (hp : s.phase = .final) : s.stepsLeft = 1 := by rw [stepsLeft, hp]

theorem State.stepsLeft_le (s : State) : s.stepsLeft ≤ 65 := by
  cases hp : s.phase with
  | idle => rw [State.stepsLeft_idle hp]; omega
  | round => rw [State.stepsLeft_round hp]; omega
  | final => rw [State.stepsLeft_final hp]; omega

theorem State.idle_of_stepsLeft {s : State} (h : s.Inv) (hleft : s.stepsLeft = 0) : s.phase = .idle := by
  cases hp : s.phase with
  | idle => rfl
  | round =>
    have := h.round hp
    rw [State.stepsLeft_round hp] at hleft
    omega
  | final => rw [State.stepsLeft_final hp] at hleft; omega

theorem stepsLeft_engineStep {s : State} (h : s.Inv) : (engineStep s).stepsLeft = s.stepsLeft - 1 := by
  cases hp : s.phase with
  | idle => rw [engineStep_idle hp, State.stepsLeft_idle hp]
  | round =>
    rw [engineStep_round hp, State.stepsLeft_round hp]
    have hle := h.round hp
    have hcount := counter_succ s.t hle
    by_cases ht : s.t = 63
    · rw [State.stepsLeft_final (by rw [roundStep_phase, if_pos ht]), ht]
      rfl
    · rw [State.stepsLeft_round (by rw [roundStep_phase, if_neg ht, hp]), roundStep_t]
      omega
  | final =>
    rw [engineStep_final hp, State.stepsLeft_final hp, State.stepsLeft_idle (finalStep_phase s)]

theorem run_engine_turns {n : Nat} {s : State} {q : List Turn} (h : s.Inv)
    (hq : s.sched = List.replicate n .engine ++ q) :
    ∃ t, run n s = .next t ∧ t.sched = q ∧ t.host = s.host ∧ t.Inv ∧ t.stepsLeft = s.stepsLeft - n := by
  induction n generalizing s with
  | zero => exact ⟨s, rfl, hq, rfl, h, rfl⟩
  | succ n ih =>
    rw [List.replicate_succ, List.cons_append] at hq
    have hstep := step_of_sched hq
    have hbegin : State.Inv { s with sched := List.replicate n .engine ++ q, doneQ := false } := h.congr rfl rfl rfl
    have hleft := stepsLeft_engineStep hbegin
    obtain ⟨-, -, -, hhost, hsched⟩ :=
      engineStepAt_frame s.phase { s with sched := List.replicate n .engine ++ q, doneQ := false }
    obtain ⟨t, hrun, hq', hhost', hinv, hleft'⟩ := ih (engineStep_keeps_inv hbegin) hsched
    refine ⟨t, (run_succ hstep).trans hrun, hq', hhost'.trans hhost, hinv, ?_⟩
    rw [hleft', hleft, Nat.sub_sub, Nat.add_comm 1 n]
    rfl

/-! ### Operations that cannot hold HOST up in IDLE -/

/-- The operation is a transaction or a WAIT. -/
def HostOp.EndsInIdle (op : HostOp) : Prop := (∃ b, op = .tx b) ∨ op = opWait

theorem step_host_idle {s : State} {op : HostOp} {rest : List HostOp} {q : List Turn} (hp : s.phase = .idle)
    (hop : op.EndsInIdle) (hhost : s.host = op :: rest) (hq : s.sched = .host :: q) :
    ∃ t, step s = .next t ∧ t.host = rest ∧ t.sched = q := by
  obtain ⟨b, rfl⟩ | rfl := hop
  · obtain ⟨t, ht⟩ := exec_completes (decode b) { s with host := rest, sched := q, doneQ := false }
    exact ⟨t, (hostStepRunsDecodedTransaction s b rest q hhost hq).trans ht, exec_host_sched ht⟩
  · exact ⟨_, pollRepeatsUntilMatch s _ _ _ rest q hhost hq, if_pos (s.wait_matches_iff.mpr hp), rfl⟩

theorem endsInIdle_of_mem_blockLoop {ms : List Block} {op : HostOp} (h : op ∈ blockLoop ms) : op.EndsInIdle := by
  have htx (b : TxWord) : (HostOp.tx b).EndsInIdle := .inl ⟨b, rfl⟩
  have hwait : opWait.EndsInIdle := .inr rfl
  cases ms with
  | nil => cases h
  | cons m ms =>
    simp only [blockLoop, laterBlocks, opsWrBlk, opsRdDig, List.mem_append, List.mem_cons, List.mem_map,
      List.mem_flatMap, List.not_mem_nil, or_false] at h
    obtain ((rfl | ⟨j, -, rfl⟩) | rfl | ⟨b, -, ⟨j, -, rfl⟩ | rfl | rfl⟩) | rfl | ⟨k, -, rfl⟩ := h
    exacts [hwait, htx _, htx _, htx _, hwait, htx _, hwait, htx _]

/-! ### The whole program -/

/-- For each operation as many turns of ENGINE as any pass can need, and then one of HOST. -/
def patientTurns (prog : List HostOp) : List Turn := prog.flatMap fun _ => List.replicate 65 .engine ++ [.host]

theorem patientTurns_cons (op : HostOp) (ops : List HostOp) :
    patientTurns (op :: ops) = List.replicate 65 .engine ++ .host :: patientTurns ops := by
  rw [patientTurns, List.flatMap_cons, ← patientTurns, List.append_assoc]
  rfl

theorem isAgent_of_mem_patientTurns {prog : List HostOp} {u : Turn} (h : u ∈ patientTurns prog) : u.isAgent := by
  obtain ⟨op, -, hu⟩ := List.mem_flatMap.mp h
  rw [List.mem_append, List.mem_singleton] at hu
  exact hu.symm.imp id List.eq_of_mem_replicate

theorem run_patientTurns {prog : List HostOp} {s : State} (h : s.Inv) (hprog : ∀ op ∈ prog, op.EndsInIdle)
    (hhost : s.host = prog) (hq : s.sched = patientTurns prog) :
    ∃ t, run (patientTurns prog).length s = .next t ∧ t.host = [] := by
  induction prog generalizing s with
  | nil => exact ⟨s, rfl, hhost⟩
  | cons op ops ih =>
    rw [List.forall_mem_cons] at hprog
    obtain ⟨hop, hops⟩ := hprog
    rw [patientTurns_cons] at hq ⊢
    obtain ⟨v, hrun, hqv, hhostv, hinv, hleft⟩ := run_engine_turns h hq
    have hidle : v.phase = .idle := State.idle_of_stepsLeft hinv (by have := s.stepsLeft_le; omega)
    obtain ⟨w, hstep, hhostw, hqw⟩ := step_host_idle hidle hop (hhostv.trans hhost) hqv
    rw [List.length_append, List.length_replicate, run_add hrun, List.length_cons, run_succ hstep]
    exact ih (everyStepKeepsInvariant v w hinv hstep) hops hhostw hqw

/-- Settles O59: `patientTurns` is the interleaving. -/
theorem protocolCanFinish : Obligations.ProtocolCanFinish := by
  intro s m prog hinv hprog
  obtain rfl := eq_blockLoop_of_messageProgram hprog
  obtain ⟨t, hrun, hend⟩ := run_patientTurns (s := { s with
    host := blockLoop (messageBlocks m), sched := patientTurns (blockLoop (messageBlocks m)) })
    (hinv.congr rfl rfl rfl) (fun _ => endsInIdle_of_mem_blockLoop) rfl rfl
  exact ⟨_, t, fun _ => isAgent_of_mem_patientTurns, hrun, hend⟩

end Sys2Proof.Machine
end

