-- ==== Sys2Proof/Proofs/Exceptions.lean ====
section
/-! There is no exception: every step completes, a command and the FINAL of a pass take effect in the order they come
in, and instances do not disturb each other (60_exceptions.md R200, R204, R208). -/

namespace Sys2Proof.Machine

/-! ### Every step completes (R200) -/

theorem clockTurn_completes (p : Pins) (s : State) : ∃ t, clockTurn p s = .next t := by
  have hbus : ∃ u, busCycle p s = .next u := by
    unfold busCycle
    split
    · exact exec_completes _ s
    · exact ⟨s, rfl⟩
  obtain ⟨u, hu⟩ := hbus
  unfold clockTurn
  split
  · exact ⟨s.applyReset, rfl⟩
  · exact ⟨engineStepAt s.phase u, by rw [hu]⟩

theorem takeTurn_completes (u : Turn) (s : State) : ∃ t, takeTurn u s = .next t := by
  cases u with
  | host => exact hostTurn_completes s
  | engine => exact ⟨engineStep s, rfl⟩
  | reset => exact ⟨s.applyReset, rfl⟩
  | clock p => exact clockTurn_completes p s

/-- Settles O46: each kind of turn completes, since no transaction is refused. -/
theorem everyStepCompletes : Obligations.EveryStepCompletes := fun s =>
  takeTurn_completes (nextTurn s) s.beginStep

/-! ### A command and FINAL in either order (R204) -/

/-- The host's turn with the word of a well-formed transaction next performs that transaction. -/
theorem step_host_encode {s : State} {i : Instr} {rest : List HostOp} {q : List Turn} (hwf : i.WellFormed)
    (hhost : s.host = .tx (encode i) :: rest) (hq : s.sched = .host :: q) :
    step s = exec i { s with host := rest, sched := q, doneQ := false } := by
  rw [hostStepRunsDecodedTransaction s _ rest q hhost hq, decode_encode hwf]

theorem step_engine_final {s : State} {q : List Turn} (hp : s.phase = .final) (hq : s.sched = .engine :: q) :
    step s = .next (finalStep { s with sched := q, doneQ := false }) := by
  have hfinal := engineStep_final (s := { s with sched := q, doneQ := false }) hp
  rw [step_of_sched hq, takeTurn, engineTurn, hfinal]

section
variable {s : State} {r : BitVec 30} {rest : List HostOp} {q : List Turn}
  (hhost : s.host = .tx (encode (.wrCtrlNext r)) :: rest) (hq : s.sched = .host :: q)
include hhost hq

theorem step_next_busy (hb : s.phase ≠ .idle) :
    step s = .next { s with host := rest, sched := q, doneQ := false, err := true, rdata := none } := by
  rw [step_host_encode rfl hhost hq]
  exact commandWhileBusyOnlySetsErr r { s with host := rest, sched := q, doneQ := false } hb _ (by simp)

theorem step_next_idle (hp : s.phase = .idle) :
    step s = .next ({ s with host := rest, sched := q, doneQ := false } : State).doNext.noAnswer := by
  rw [step_host_encode rfl hhost hq]
  exact exec_startInstr_idle false r hp

end

/-- Settles O47: before FINAL the command finds the engine busy and FINAL leaves its ERR alone; after FINAL it finds
IDLE, and DoNext runs on the state that FINAL leaves. -/
theorem commandAndFinalInEitherOrder : Obligations.CommandAndFinalInEitherOrder := by
  intro s r rest q hp hhost
  have hbusy : s.phase ≠ .idle := by simp [hp]
  constructor
  · have hreject := step_next_busy (s := { s with sched := .host :: .engine :: q }) hhost rfl hbusy
    have hfinal := step_engine_final (s := { s with
      host := rest, sched := .engine :: q, doneQ := false, err := true, rdata := none }) hp rfl
    exact ⟨_, (run_succ hreject).trans (run_one hfinal), rfl, rfl, rfl⟩
  · have hfinal := step_engine_final (s := { s with sched := .engine :: .host :: q }) hp rfl
    have hnext := step_next_idle (s := finalStep { s with sched := .host :: q, doneQ := false }) hhost rfl rfl
    exact ⟨_, (run_succ hfinal).trans (run_one hnext), rfl, rfl, rfl, rfl⟩

/-! ### Instances (R208) -/

/-- The platform's step at a place puts there the next state of what stands there. -/
theorem Platform.stepAt_of_step {p : Platform} {n : Nat} {s t : State} (hs : p[n]? = some s)
    (ht : step s = .next t) : p.stepAt n = p.set n t := by
  simp only [stepAt, hs, ht]

/-- Settles O53: a step of the platform sets one place of the list. -/
theorem instancesAreIndependent : Obligations.InstancesAreIndependent := by
  intro p n s hs
  obtain ⟨t, ht⟩ := everyStepCompletes s
  obtain ⟨hn, -⟩ := List.getElem?_eq_some_iff.mp hs
  rw [Platform.stepAt_of_step hs ht]
  exact ⟨⟨t, ht, List.getElem?_set_self hn⟩, fun k hk => List.getElem?_set_ne hk.symm⟩

end Sys2Proof.Machine
end

