-- ==== Sys2Proof/Proofs/ResetAndClock.lean ====
section
/-! Reset, the clock cycle as an interleaving of HOST and ENGINE, and the timing of a block pass in engine steps and in
clock cycles (70_reset_and_hazards.md R220, R221, R229, R230). -/

namespace Sys2Proof.Machine

/-! ### A pass by its engine steps (R230) -/

theorem PassAfter.t_eq {p s : State} {n : Nat} (h : PassAfter p n s) : s.t = BitVec.ofNat 7 n := by
  rw [← h.counter, BitVec.ofNat_toNat, BitVec.setWidth_eq]

/-- Settles O41: the command begins the pass, and T and PHASE follow the number of its turns of ENGINE. -/
theorem passIsBusyUntilSixtyFifthEngineStep : Obligations.PassIsBusyUntilSixtyFifthEngineStep := by
  intro s r withInit rest turns hp hhost hsched hagent hcount
  obtain ⟨s₁, hstart, hq, hbegun⟩ := step_startInstr hp hhost hsched
  have hturns : s₁.sched = turns ++ [] := by rw [hq, List.append_nil]
  obtain ⟨t, hrun, -, hpass⟩ := hbegun.run_agents turns hturns hagent (by omega)
  rw [Nat.zero_add] at hpass
  exact ⟨t, (run_succ hstart).trans hrun, hpass.t_eq, hpass.phase⟩

/-! ### The transaction of a clock cycle (30_encoding.md R80) -/

section
variable {p : Pins} {s u : State}

theorem busCycle_of_cs (hcs : p.cs = true) : busCycle p s = exec (decode p.tx) s := by
  rw [busCycle, if_pos hcs]

theorem busCycle_of_not_cs (hcs : p.cs = false) : busCycle p s = .next s := by
  simp [busCycle, hcs]

theorem busCycle_cases (h : busCycle p s = .next u) : u = s ∨ exec (decode p.tx) s = .next u := by
  cases hcs : p.cs with
  | true => exact .inr ((busCycle_of_cs hcs).symm.trans h)
  | false => exact .inl (Host.Outcome.next.inj (h.symm.trans (busCycle_of_not_cs hcs)))

theorem busCycle_completes (p : Pins) (s : State) : ∃ u, busCycle p s = .next u := by
  cases hcs : p.cs with
  | true => rw [busCycle_of_cs hcs]; exact exec_completes _ s
  | false => exact ⟨s, busCycle_of_not_cs hcs⟩

/-- While busy, the transaction of a cycle changes at most BLK, ERR and the answer. -/
theorem busCycle_busy_frame (h : busCycle p s = .next u) (hb : s.phase ≠ .idle) :
    u = { s with blk := u.blk, err := u.err, rdata := u.rdata } := by
  obtain rfl | hu := busCycle_cases h
  · rfl
  · exact exec_busy_frame hu hb

/-- In every phase, the transaction of a cycle leaves DONE_Q and the interleaving alone. -/
theorem busCycle_doneQ_sched (h : busCycle p s = .next u) : u.doneQ = s.doneQ ∧ u.sched = s.sched := by
  obtain rfl | hu := busCycle_cases h
  · exact ⟨rfl, rfl⟩
  · obtain ⟨t, ht, -, -, hdoneQ, -, hsched⟩ := everyTransactionCompletes (decode p.tx) s
    obtain rfl := Host.Outcome.next.inj (ht.symm.trans hu)
    exact ⟨hdoneQ, hsched⟩

end

/-! ### Reset (R220, R221) and the clock cycle (R229) -/

theorem clockTurn_of_rst {p : Pins} (hrst : p.rst = true) (s : State) : clockTurn p s = resetTurn s := by
  rw [clockTurn, if_pos hrst]

/-- Settles O26: rst in a clock cycle overrides the cycle's transaction and engine step, which leaves the reset turn. -/
theorem resetStepAbortsAndReinitialises : Obligations.ResetStepAbortsAndReinitialises := by
  intro s p q hrst u hu
  have hturn : takeTurn u { s with sched := q, doneQ := false } = resetTurn { s with sched := q, doneQ := false } := by
    rw [List.mem_pair] at hu
    obtain rfl | rfl := hu
    · rfl
    · exact clockTurn_of_rst hrst _
  exact (step_of_sched rfl).trans hturn

/-- Without rst a cycle is its transaction, and then the engine step of the phase that the cycle began in. -/
theorem step_clock {s u : State} {p : Pins} {q : List Turn} (hq : s.sched = .clock p :: q) (hrst : p.rst = false)
    (hu : busCycle p { s with sched := q, doneQ := false } = .next u) :
    step s = .next (engineStepAt s.phase u) := by
  rw [step_of_sched hq, takeTurn, clockTurn, hrst, hu]
  rfl

/-- In IDLE a cycle without rst is its transaction alone. -/
theorem step_clock_idle {s u : State} {p : Pins} {q : List Turn} (hp : s.phase = .idle) (hq : s.sched = .clock p :: q)
    (hrst : p.rst = false) (hu : busCycle p { s with sched := q, doneQ := false } = .next u) : step s = .next u := by
  rw [step_clock hq hrst hu, hp, engineStepAt]

theorem step_engine {s : State} {q : List Turn} (hq : s.sched = .engine :: q) :
    step s = .next (engineStep { s with sched := q, doneQ := false }) := by
  rw [step_of_sched hq, takeTurn, engineTurn]

theorem State.command_with_sched {s : State} {q : List Turn} {perform : State → State}
    (h : perform { s with sched := q } = { perform s with sched := q }) :
    State.command { s with sched := q } perform = { s.command perform with sched := q } := by
  by_cases hp : s.phase = .idle
  · rw [State.command_idle _ _ hp, State.command_idle { s with sched := q } _ hp, h]
  · rw [State.command_busy _ _ hp, State.command_busy { s with sched := q } _ hp]
    rfl

/-- A transaction does not depend on the interleaving that follows it. -/
theorem exec_with_sched {i : Instr} {s t : State} (q : List Turn) (h : exec i s = .next t) :
    exec i { s with sched := q } = .next { t with sched := q } := by
  cases i with
  | wrCtrlInit | wrCtrlNext | wrCtrlInitNext =>
    obtain rfl := Host.Outcome.next.inj h
    exact congrArg (fun u : State => Host.Outcome.next u.noAnswer) (State.command_with_sched rfl)
  | _ =>
    obtain rfl := Host.Outcome.next.inj h
    rfl

/-- Settles O48: with cs = 0 only the engine step is left; in IDLE there is no engine step; while busy the transaction
keeps the phase, so the engine's own turn takes the step that the cycle's start enabled. -/
theorem clockCycleIsAnInterleaving : Obligations.ClockCycleIsAnInterleaving := by
  intro s p q hrst
  have hhost (q' : List Turn) : step { s with host := .tx p.tx :: s.host, sched := .host :: q' } =
      exec (decode p.tx) { s with sched := q', doneQ := false } :=
    hostStepRunsDecodedTransaction _ _ _ _ rfl rfl
  obtain ⟨u, hu⟩ := busCycle_completes p { s with sched := q, doneQ := false }
  have hclock : step { s with sched := .clock p :: q } = .next (engineStepAt s.phase u) := step_clock rfl hrst hu
  cases hcs : p.cs with
  | false =>
    rw [busCycle_of_not_cs hcs] at hu
    obtain rfl := Host.Outcome.next.inj hu
    rw [if_neg Bool.false_ne_true, hclock, run_one (step_engine rfl), engineStep]
  | true =>
    rw [busCycle_of_cs hcs] at hu
    rw [if_pos rfl]
    split
    case isTrue hp =>
      rw [run_one ((hhost q).trans hu), hclock, hp, engineStepAt]
    case isFalse hb =>
      have hexec := (hhost (.engine :: q)).trans (exec_with_sched (.engine :: q) hu)
      have hframe := exec_busy_frame hu hb
      have hengine : step { u with sched := .engine :: q } = .next (engineStepAt s.phase u) := by
        rw [step_engine rfl, hframe, engineStep]
      rw [hclock, run_succ hexec, run_one hengine]

/-! ### A pass by its clock cycles (R229) -/

/-- What k cycles without reset make of the pass that began in `p`: k rounds of it while it runs, then FINAL with
DONE_Q, then a cycle that lets DONE_Q fall and may start another pass. -/
inductive PassCycle (p : State) : Nat → State → Prop
  | busy {k : Nat} {t : State} (pass : PassAfter p k t) (doneQ : t.doneQ = false) : PassCycle p k t
  | done {t : State} (pass : PassDone p t) (doneQ : t.doneQ = true) : PassCycle p 65 t
  | after {t : State} (doneQ : t.doneQ = false) : PassCycle p 66 t

/-- A cycle without reset goes on from one stage of `PassCycle` to the next, whatever its transaction is. -/
theorem PassCycle.step_clock {p s : State} {k : Nat} {pins : Pins} {q : List Turn} (h : PassCycle p k s) (hk : k < 66)
    (hq : s.sched = .clock pins :: q) (hrst : pins.rst = false) :
    ∃ t, step s = .next t ∧ t.sched = q ∧ PassCycle p (k + 1) t := by
  obtain ⟨u, hu⟩ := busCycle_completes pins { s with sched := q, doneQ := false }
  obtain ⟨hdoneQ, hsched⟩ := busCycle_doneQ_sched hu
  obtain ⟨-, -, -, -, hkeep⟩ := engineStepAt_frame s.phase u
  refine ⟨_, Machine.step_clock hq hrst hu, hkeep.trans hsched, ?_⟩
  cases h with
  | busy hpass _ =>
    have hframe := busCycle_busy_frame hu hpass.busy
    have hpassu : PassAfter p k u := hpass.congr (by rw [hframe])
    have hengine : engineStepAt s.phase u = engineStep u := by rw [engineStep, hframe]
    rw [hengine]
    obtain hlt | rfl := hpass.le.lt_or_eq
    · have hround : u.phase = .round := by rw [hpassu.phase, if_neg hlt.ne]
      exact .busy (hpassu.engineStep_succ hlt) (by rw [engineStep_round hround]; exact hdoneQ)
    · exact .done hpassu.engineStep_done (by rw [engineStep_final hpassu.phase]; rfl)
  | done hdone _ => rw [hdone.phase]; exact .after hdoneQ
  | after => exact absurd hk (Nat.lt_irrefl 66)

theorem PassCycle.run_clocks {p s : State} {later : List Pins} {rest : List Turn} (h : PassCycle p 0 s)
    (hq : s.sched = later.map .clock ++ rest) (hrst : ∀ u ∈ later, u.rst = false) {k : Nat}
    (hlen : k ≤ later.length) (hk : k ≤ 66) :
    ∃ t, run k s = .next t ∧ t.sched = (later.drop k).map .clock ++ rest ∧ PassCycle p k t := by
  induction k with
  | zero => exact ⟨s, rfl, hq, h⟩
  | succ k ih =>
    obtain ⟨v, hrun, hv, hcycle⟩ := ih (by omega) (by omega)
    rw [List.drop_eq_getElem_cons hlen] at hv
    obtain ⟨t, hstep, ht⟩ := hcycle.step_clock hk hv (hrst _ (List.getElem_mem hlen))
    exact ⟨t, (run_add hrun).trans (run_one hstep), ht⟩

/-- The pins of a start command carry its transaction word (30_encoding.md R74, R80). -/
theorem tx_startCommand (r : BitVec 30) (withInit : Bool) :
    Pins.tx ⟨false, true, true, 0x08, ctrlData r true withInit⟩ = encode (startInstr withInit r) := by
  cases withInit <;> rfl

/-- The cycle that presents a start command in IDLE begins the pass, with no round done. -/
theorem step_clock_startCommand {s : State} {r : BitVec 30} {withInit : Bool} {q : List Turn} (hp : s.phase = .idle)
    (hq : s.sched = .clock ⟨false, true, true, 0x08, ctrlData r true withInit⟩ :: q) :
    ∃ t, step s = .next t ∧ t.sched = q ∧ PassCycle (s.passStart withInit) 0 t := by
  have hexec := exec_startInstr_idle (s := { s with sched := q, doneQ := false }) withInit r hp
  have hu := busCycle_of_cs (p := ⟨false, true, true, 0x08, ctrlData r true withInit⟩)
    (s := { s with sched := q, doneQ := false }) rfl
  rw [tx_startCommand, decode_encode (startInstr_wellFormed withInit r), hexec] at hu
  have hpass : PassAfter (s.passStart withInit) 0
      (State.passStart { s with sched := q, doneQ := false } withInit).doNext.noAnswer :=
    (s.passStart withInit).passAfter_doNext.congr (by cases withInit <;> rfl)
  exact ⟨_, step_clock_idle hp hq rfl hu, by cases withInit <;> rfl, .busy hpass (by cases withInit <;> rfl)⟩

/-- Settles O49: the ports show READY and DONE_Q, which `PassCycle` gives for each cycle, and BLOCKS − 1 is the count
before FINAL. -/
theorem passTimingInClockCycles : Obligations.PassTimingInClockCycles := by
  intro s r withInit later rest n p hp hsched hrst hpos hlen hn
  obtain ⟨k, rfl⟩ := Nat.exists_eq_add_of_le' hpos
  obtain ⟨s₁, hstart, hq, hbegun⟩ := step_clock_startCommand hp hsched
  obtain ⟨t, hrun, -, hcycle⟩ := hbegun.run_clocks hq hrst (k := k) (by omega) (by omega)
  refine ⟨t, (run_succ hstart).trans hrun, ?_⟩
  cases hcycle with
  | busy hpass hdoneQ =>
    have hle : k ≤ 64 := hpass.le
    exact ⟨fun _ => ⟨decide_eq_false hpass.busy, hdoneQ⟩, fun _ => by omega, fun _ => hdoneQ⟩
  | done hdone hdoneQ =>
    have hindex : t.blocks - 1 = if withInit then 0 else s.blocks := by
      rw [hdone.blocks, BitVec.add_sub_cancel, State.passStart_blocks]
    exact ⟨fun _ => by omega, fun _ => ⟨decide_eq_true hdone.phase, hdoneQ, (if_pos hdoneQ).trans hindex⟩,
      fun _ => by omega⟩
  | after hdoneQ => exact ⟨fun _ => by omega, fun _ => by omega, fun _ => hdoneQ⟩

end Sys2Proof.Machine
end

