-- ==== Sys2Proof/Proofs/FetchWord.lean ====
section
/-! A number placed from outside as the host's next transaction: the next step runs what the decoder reads from it
(30_encoding.md R80, notes/assumptions/2.md, notes/assumptions/10.md). -/

namespace Sys2Proof

/-- The decoder reads an instruction exactly from the numbers that are transactions. -/
theorem decodeTableWord_eq_some_iff {nbits w : Nat} {i : Instr} :
    decodeTableWord nbits w = some i ↔ ∃ b, txOfNumber nbits w = .ok b ∧ decode b = i := by
  rw [decodeTableWord, decodeWord]
  cases txOfNumber nbits w with
  | error e => simp [Except.map, Except.toOption]
  | ok b => simp [Except.map, Except.toOption]

end Sys2Proof

namespace Sys2Proof.Machine

/-- A number that is a transaction is placed as that transaction. -/
theorem withFetchWord_of_txOfNumber {s : State} {nbits w : Nat} {b : TxWord} (h : txOfNumber nbits w = .ok b) :
    s.withFetchWord nbits w = s.present b := by
  rw [State.withFetchWord, State.presentNumber, h]

/-- The step after `present` runs the transaction and takes both list heads off again, so only DONE_Q differs. -/
theorem step_present (s : State) (b : TxWord) : step (s.present b) = exec (decode b) { s with doneQ := false } :=
  hostStepRunsDecodedTransaction (s.present b) b s.host s.sched rfl rfl

/-- Settles O44: a number that decodes is a transaction, and the step after its placing runs it. -/
theorem fetchWordRunsNext : Obligations.FetchWordRunsNext := by
  intro s nbits w i hdecode
  obtain ⟨b, htx, rfl⟩ := decodeTableWord_eq_some_iff.mp hdecode
  rw [withFetchWord_of_txOfNumber htx, step_present]

end Sys2Proof.Machine
end
